-- ==== Sys2Proof/Word.lean ====
section
/-! DEFINITION. The word types of the block and the command beat.
A value of n bits is an unsigned integer in [0, 2^n) (00_scope.md R16). Values whose width the spec fixes are bit
vectors; values whose width a configuration parameter fixes (extended patterns, bus values) are natural numbers, with
the width stated wherever it matters (DESIGN CHOICE, log 7). -/

namespace Sys2Proof

/-- A 32-bit word (00_scope.md R16); also a binary32 pattern (10_state.md R27). -/
abbrev Word := BitVec 32

/-- A 64-bit pattern, the binary64 format (10_state.md R28). -/
abbrev DWord := BitVec 64

/-- The 4-bit flag vector: bit 0 NX, bit 1 UF, bit 2 OF, bit 3 NV (10_state.md R23). -/
abbrev FlagBits := BitVec 4

/-- A pattern or bus value whose width the configuration fixes: bit `i` of the pattern is bit `i` of the number
(00_scope.md R16, DESIGN CHOICE, log 7). -/
abbrev Pattern := Nat

/-- One command beat: the command word and the two operand bus values (30_encoding.md R55). -/
structure Beat where
  cmd : BitVec 8
  opA : Pattern
  opB : Pattern
deriving DecidableEq, Repr

/-- The class of a pattern, "derived, not stored" (10_state.md R30). -/
inductive FpClass where
  | zero | subnormal | normal | infinity | nan
deriving DecidableEq, Repr

/-- The format letters S (binary32), D (binary64), X (extended) (00_scope.md R18, 30_encoding.md R57). -/
inductive FormatId where
  | S | D | X
deriving DecidableEq, Repr

end Sys2Proof
end

