-- ==== Sys2Proof/Config.lean ====
section
/-! DEFINITION. The implementation parameters of 00_scope.md R9 to R13, and the free values.
The parameters are one record of plain data, so that a claim can name a configuration or hold for all of them.
WORD_ORDER (R14) is the host's and is read by no rule of the block (DESIGN CHOICE, log 10); LATENCY (R15) is timing
only (DESIGN CHOICE, log 2). -/

namespace Sys2Proof

/-- The extended-format descriptor EXT_EXP_W, EXT_MANH_W, EXT_MANL_W, EXT_NBIT (00_scope.md R9). -/
structure ExtLayout where
  expW  : Nat
  manhW : Nat
  manlW : Nat
  nbit  : Nat
deriving DecidableEq, Repr

/-- The constraint of 00_scope.md R9 on the descriptor. -/
def ExtLayout.wf (x : ExtLayout) : Bool :=
  decide (2 ≤ x.expW) && decide (2 ≤ x.manhW) && decide (1 ≤ x.manlW) &&
    (decide (x.nbit = 0) || decide (x.nbit = 2 ^ (x.manhW - 1)))

/-- The default layout: 80 bits, explicit leading bit (00_scope.md R9). -/
def ExtLayout.x87 : ExtLayout := { expW := 15, manhW := 32, manlW := 32, nbit := 0x80000000 }

/-- The alternative layout: 128 bits, implicit leading bit (00_scope.md R9). -/
def ExtLayout.quad : ExtLayout := { expW := 15, manhW := 48, manlW := 64, nbit := 0 }

/-- Which NAN_ADD the block was built with (00_scope.md R13): the function the spec leaves open (DESIGN CHOICE, log 4),
or
NAN_ADD_DEFAULT, "the default for a concrete build and for a simulator" (42_nextafter.md R113, PRESUMED, log 5). -/
inductive NanAddChoice where
  | uninterpreted
  | ieeeDefault
deriving DecidableEq, Repr

/-- The configuration record (00_scope.md R9, R11, R12, R13). Fixed when the block is built
(70_reset_and_hazards.md R173). -/
structure Config where
  ext            : ExtLayout
  hasFlags       : Bool
  ufOnZeroResult : Bool
  nanAdd         : NanAddChoice
deriving DecidableEq, Repr

/-- A configuration that breaks the constraint of R9 is refused (93_implementation_defined.md #1). -/
def Config.wf (c : Config) : Bool := c.ext.wf

/-- The configuration this hardware takes by default; NAN_ADD stays open (00_scope.md R9, R11, R12, R13; DESIGN CHOICE,
log 3). -/
def Config.default : Config :=
  { ext := ExtLayout.x87, hasFlags := true, ufOnZeroResult := true, nanAdd := .uninterpreted }

/-- The documented alternative layout, everything else by default (00_scope.md R9). -/
def Config.quad : Config := { Config.default with ext := ExtLayout.quad }

/-- How a host keeps the two words of a binary64 value in memory (00_scope.md R14). A parameter of the host. -/
inductive WordOrder where
  | little
  | big
deriving DecidableEq, Repr

/-- What the open NAN_ADD picks: the sign, the leading mantissa bit where the format stores one, a seed for the
nonzero fraction, and whether invalid is reported (42_nextafter.md R113). -/
structure NanChoice where
  sign     : Bool
  lead     : Bool
  fraction : Nat
  invalid  : Bool
deriving DecidableEq, Repr, Inhabited

/-- FREE VALUE (DESIGN CHOICE, log 4): the choice the open NAN_ADD makes for a format, the layout and the two operands,
and for
nothing else (property P2 of 42_nextafter.md R113). -/
opaque Config.nanChoice : FormatId → ExtLayout → Pattern → Pattern → NanChoice

/-- FREE VALUE (DESIGN CHOICE, log 6): what stands on `res` in a cycle that answers no command (10_state.md R37, R38).
-/
opaque Config.unansweredRes : Nat → Nat

end Sys2Proof
end

