-- ==== Sys2Proof/Machine/Layout.lean ====
section
/-! DEFINITION. Bit fields, derived widths and the format descriptors (00_scope.md R9, R10, R16; 10_state.md R27 to
R31). -/

namespace Sys2Proof

/-- `mask(n) = 2^n - 1` (00_scope.md R16). -/
def mask (n : Nat) : Nat := 2 ^ n - 1

/-- The `len`-bit value `v[lo+len-1 : lo]` (00_scope.md R16). -/
def field (v lo len : Nat) : Nat := v / 2 ^ lo % 2 ^ len

/-- `{a, b}` with `b` of `len` bits: `a` in the more significant position (00_scope.md R16). -/
def cat (a len b : Nat) : Nat := a * 2 ^ len + b

/-- `HI(d) = d[63:32]` (10_state.md R28). -/
def hiWord (d : DWord) : Word := d.extractLsb' 32 32

/-- `LO(d) = d[31:0]` (10_state.md R28). -/
def loWord (d : DWord) : Word := d.extractLsb' 0 32

/-- `{hi, lo}`: a binary64 pattern from its two words (10_state.md R28). -/
def joinWords (hi lo : Word) : DWord := hi ++ lo

/-- `T = MH + ML`: the width of the extended format's trailing field (10_state.md R29). -/
def ExtLayout.trailW (x : ExtLayout) : Nat := x.manhW + x.manlW

/-- `EXT_W = 1 + EXT_EXP_W + EXT_MANH_W + EXT_MANL_W` (00_scope.md R9). -/
def ExtLayout.width (x : ExtLayout) : Nat := 1 + x.expW + x.manhW + x.manlW

/-- `W = max(64, EXT_W)`: the width of the operand and result buses (00_scope.md R10). -/
def Config.busW (c : Config) : Nat := max 64 c.ext.width

/-- A format descriptor: exponent width `E`, trailing width `T`, and the mask `NB` of the explicit leading bit inside
the trailing field, 0 where the leading bit is implicit (10_state.md R31). -/
structure Fmt where
  expW   : Nat
  trailW : Nat
  nb     : Nat
deriving DecidableEq, Repr

/-- The total width `N` of the format (00_scope.md R18). -/
def Fmt.width (F : Fmt) : Nat := 1 + F.expW + F.trailW

/-- The fraction width: `FW = T - 1` if `NB != 0`, else `T` (10_state.md R31). -/
def Fmt.fracW (F : Fmt) : Nat := if F.nb ≠ 0 then F.trailW - 1 else F.trailW

/-- `EMAX(F) = mask(E_F)` (10_state.md R30). -/
def Fmt.expMax (F : Fmt) : Nat := mask F.expW

/-- binary32: exponent field 30:23, mantissa 22:0 (10_state.md R27; PRESUMED, log 12). -/
def Fmt.binary32 : Fmt := { expW := 8, trailW := 23, nb := 0 }

/-- binary64: exponent field 62:52, mantissa 51:0 (10_state.md R28; PRESUMED, log 12). -/
def Fmt.binary64 : Fmt := { expW := 11, trailW := 52, nb := 0 }

/-- The extended format of a layout; `NB = EXT_NBIT << EXT_MANL_W` (10_state.md R29, R31). -/
def Fmt.extended (x : ExtLayout) : Fmt :=
  { expW := x.expW, trailW := x.trailW, nb := x.nbit * 2 ^ x.manlW }

/-- The descriptor of each format of a configuration. -/
def Config.fmt (c : Config) : FormatId → Fmt
  | .S => Fmt.binary32
  | .D => Fmt.binary64
  | .X => Fmt.extended c.ext

end Sys2Proof
end

