-- ==== Sys2Proof/Machine/Operands.lean ====
section
/-! DEFINITION. Operand assembly: which low bits of an operand bus a command reads (30_encoding.md R60). Every other bus
bit is ignored; nothing is sign-extended, scaled or shifted. There is no other operand form. -/

namespace Sys2Proof

/-- `op[31:0]`: a binary32 value or a 32-bit word. -/
def wordOperand (op : Pattern) : Word := BitVec.ofNat 32 op

/-- `op[63:0]`: a binary64 value. -/
def dwordOperand (op : Pattern) : DWord := BitVec.ofNat 64 op

/-- `op[3:0]`: the flag vector FWFLAGS writes. -/
def flagOperand (op : Pattern) : FlagBits := BitVec.ofNat 4 op

/-- `op[EXT_W-1:0]`: an extended value. -/
def extOperand (x : ExtLayout) (op : Pattern) : Pattern := field op 0 x.width

/-- `op[E:0]`: sign in bit `E`, exponent field in bits `E-1:0`. -/
def signExpOperand (x : ExtLayout) (op : Pattern) : Pattern := field op 0 (x.expW + 1)

/-- `op[T-1:0] = {manh, manl}`. -/
def trailOperand (x : ExtLayout) (op : Pattern) : Pattern := field op 0 x.trailW

/-- `op[MH-1:0]`: a high mantissa word. -/
def manhOperand (x : ExtLayout) (op : Pattern) : Pattern := field op 0 x.manhW

/-- `op[ML-1:0]`: a low mantissa word. -/
def manlOperand (x : ExtLayout) (op : Pattern) : Pattern := field op 0 x.manlW

/-- `op[E-1:0]`: an exponent field. -/
def expOperand (x : ExtLayout) (op : Pattern) : Pattern := field op 0 x.expW

end Sys2Proof
end

