-- ==== Sys2Proof/Syntax.lean ====
section
/-! DEFINITION. The 27 commands, one constructor per row of spec/opcode_table.json, each with the operand values it
consumes and no others (30_encoding.md R59, R60). Operands are values: the block has no registers to name (R55). -/

namespace Sys2Proof

/-- A defined command with its assembled operands. -/
inductive Instr where
  /-- GETW.S (40_word_accessors.md R80) -/
  | getwS (a : Word)
  /-- SETW.S (R81) -/
  | setwS (w : Word)
  /-- EXTRACT.D (R82) -/
  | extractD (a : DWord)
  /-- INSERT.D (R83) -/
  | insertD (hi lo : Word)
  /-- GETHI.D (R84) -/
  | gethiD (a : DWord)
  /-- GETLO.D (R85) -/
  | getloD (a : DWord)
  /-- SETHI.D (R86) -/
  | sethiD (a : DWord) (w : Word)
  /-- SETLO.D (R87) -/
  | setloD (a : DWord) (w : Word)
  /-- EXTRACT.X (R88) -/
  | extractX (a : Pattern)
  /-- INSERT.X (R89) -/
  | insertX (se m : Pattern)
  /-- GETMANH.X (R90) -/
  | getmanhX (a : Pattern)
  /-- GETMANL.X (R91) -/
  | getmanlX (a : Pattern)
  /-- SETMANH.X (R92) -/
  | setmanhX (a w : Pattern)
  /-- SETMANL.X (R93) -/
  | setmanlX (a w : Pattern)
  /-- GETEXP.X (R94) -/
  | getexpX (a : Pattern)
  /-- SETEXP.X (R95) -/
  | setexpX (a w : Pattern)
  /-- SIGNBIT.S (41_sign_primitives.md R101) -/
  | signbitS (x : Word)
  /-- COPYSIGN.S (R104) -/
  | copysignS (x y : Word)
  /-- SIGNBIT.D (R102) -/
  | signbitD (x : DWord)
  /-- COPYSIGN.D (R105) -/
  | copysignD (x y : DWord)
  /-- SIGNBIT.X (R103) -/
  | signbitX (x : Pattern)
  /-- COPYSIGN.X (R106) -/
  | copysignX (x y : Pattern)
  /-- NEXTAFTER.S (42_nextafter.md R120) -/
  | nextafterS (x y : Word)
  /-- NEXTAFTER.D (R121) -/
  | nextafterD (x y : DWord)
  /-- NEXTAFTER.X (R122) -/
  | nextafterX (x y : Pattern)
  /-- FRFLAGS (43_system.md R140) -/
  | frflags
  /-- FWFLAGS (R141) -/
  | fwflags (v : FlagBits)
deriving DecidableEq, Repr

end Sys2Proof
end

