-- ==== Sys2Proof/WellFormed.lean ====
section
/-! DEFINITION. When a command is well-formed under a configuration: each operand whose width the configuration fixes
fits the width 30_encoding.md R60 gives it. The S and D operands, words and flag vectors carry their width in their
type. -/

namespace Sys2Proof

/-- `v` is a value of `len` bits (00_scope.md R16). -/
def fits (v len : Nat) : Bool := decide (v < 2 ^ len)

/-- Every operand has the width of 30_encoding.md R60. -/
def Instr.wf (c : Config) : Instr → Bool
  | .getwS _ => true
  | .setwS _ => true
  | .extractD _ => true
  | .insertD _ _ => true
  | .gethiD _ => true
  | .getloD _ => true
  | .sethiD _ _ => true
  | .setloD _ _ => true
  | .extractX a => fits a c.ext.width
  | .insertX se m => fits se (c.ext.expW + 1) && fits m c.ext.trailW
  | .getmanhX a => fits a c.ext.width
  | .getmanlX a => fits a c.ext.width
  | .setmanhX a w => fits a c.ext.width && fits w c.ext.manhW
  | .setmanlX a w => fits a c.ext.width && fits w c.ext.manlW
  | .getexpX a => fits a c.ext.width
  | .setexpX a w => fits a c.ext.width && fits w c.ext.expW
  | .signbitS _ => true
  | .copysignS _ _ => true
  | .signbitD _ => true
  | .copysignD _ _ => true
  | .signbitX x => fits x c.ext.width
  | .copysignX x y => fits x c.ext.width && fits y c.ext.width
  | .nextafterS _ _ => true
  | .nextafterD _ _ => true
  | .nextafterX x y => fits x c.ext.width && fits y c.ext.width
  | .frflags => true
  | .fwflags _ => true

end Sys2Proof
end

