-- ==== Sys2Proof/Decode.lean ====
section
/-! DEFINITION. The decoder of 30_encoding.md R67 with the operand assembly of R60, and after it the encoder, written
from the opcode map R59 and the operand table R60. -/

namespace Sys2Proof

/-- Why a command word is illegal (30_encoding.md R62). -/
inductive Illegal where
  /-- `FMT = 11`, in every group (R57) -/
  | reservedFormat
  /-- a system command with `FMT` 01 or 10 (R57) -/
  | systemFormat
  /-- `FN` beyond the functions of the group and format -/
  | undefinedFunction
deriving DecidableEq, Repr

/-- `GRP = cmd[7:6]` (30_encoding.md R56). -/
def cmdGroup (cmd : BitVec 8) : Nat := (cmd.extractLsb' 6 2).toNat

/-- `FMT = cmd[5:4]` (30_encoding.md R56). -/
def cmdFormat (cmd : BitVec 8) : Nat := (cmd.extractLsb' 4 2).toNat

/-- `FN = cmd[3:0]` (30_encoding.md R56). -/
def cmdFunction (cmd : BitVec 8) : Nat := (cmd.extractLsb' 0 4).toNat

/-- Group ACC, the word accessors (30_encoding.md R58, R67). -/
def decodeAcc (x : ExtLayout) (fmt fn : Nat) (a b : Pattern) : Except Illegal Instr :=
  match fmt, fn with
  | 0, 0 => .ok (.getwS (wordOperand a))
  | 0, 1 => .ok (.setwS (wordOperand a))
  | 1, 0 => .ok (.extractD (dwordOperand a))
  | 1, 1 => .ok (.insertD (wordOperand a) (wordOperand b))
  | 1, 2 => .ok (.gethiD (dwordOperand a))
  | 1, 3 => .ok (.getloD (dwordOperand a))
  | 1, 4 => .ok (.sethiD (dwordOperand a) (wordOperand b))
  | 1, 5 => .ok (.setloD (dwordOperand a) (wordOperand b))
  | 2, 0 => .ok (.extractX (extOperand x a))
  | 2, 1 => .ok (.insertX (signExpOperand x a) (trailOperand x b))
  | 2, 2 => .ok (.getmanhX (extOperand x a))
  | 2, 3 => .ok (.getmanlX (extOperand x a))
  | 2, 4 => .ok (.setmanhX (extOperand x a) (manhOperand x b))
  | 2, 5 => .ok (.setmanlX (extOperand x a) (manlOperand x b))
  | 2, 6 => .ok (.getexpX (extOperand x a))
  | 2, 7 => .ok (.setexpX (extOperand x a) (expOperand x b))
  | 3, _ => .error .reservedFormat
  | _, _ => .error .undefinedFunction

/-- Group SGN, the sign primitives (30_encoding.md R58, R67). -/
def decodeSgn (x : ExtLayout) (fmt fn : Nat) (a b : Pattern) : Except Illegal Instr :=
  match fmt, fn with
  | 0, 0 => .ok (.signbitS (wordOperand a))
  | 0, 1 => .ok (.copysignS (wordOperand a) (wordOperand b))
  | 1, 0 => .ok (.signbitD (dwordOperand a))
  | 1, 1 => .ok (.copysignD (dwordOperand a) (dwordOperand b))
  | 2, 0 => .ok (.signbitX (extOperand x a))
  | 2, 1 => .ok (.copysignX (extOperand x a) (extOperand x b))
  | 3, _ => .error .reservedFormat
  | _, _ => .error .undefinedFunction

/-- Group ADJ, the adjacent-value engine (30_encoding.md R58, R67). -/
def decodeAdj (x : ExtLayout) (fmt fn : Nat) (a b : Pattern) : Except Illegal Instr :=
  match fmt, fn with
  | 0, 0 => .ok (.nextafterS (wordOperand a) (wordOperand b))
  | 1, 0 => .ok (.nextafterD (dwordOperand a) (dwordOperand b))
  | 2, 0 => .ok (.nextafterX (extOperand x a) (extOperand x b))
  | 3, _ => .error .reservedFormat
  | _, _ => .error .undefinedFunction

/-- Group SYS, the flag register commands; `FMT` must be 00 (30_encoding.md R57, R67). -/
def decodeSys (fmt fn : Nat) (a : Pattern) : Except Illegal Instr :=
  match fmt, fn with
  | 0, 0 => .ok .frflags
  | 0, 1 => .ok (.fwflags (flagOperand a))
  | 0, _ => .error .undefinedFunction
  | 3, _ => .error .reservedFormat
  | _, _ => .error .systemFormat

/-- The decoder: total on every command word and every operand value; which command a beat is depends on `cmd` alone
(30_encoding.md R67). -/
def decode (c : Config) (b : Beat) : Except Illegal Instr :=
  match cmdGroup b.cmd with
  | 0 => decodeAcc c.ext (cmdFormat b.cmd) (cmdFunction b.cmd) b.opA b.opB
  | 1 => decodeSgn c.ext (cmdFormat b.cmd) (cmdFunction b.cmd) b.opA b.opB
  | 2 => decodeAdj c.ext (cmdFormat b.cmd) (cmdFunction b.cmd) b.opA b.opB
  | _ => decodeSys (cmdFormat b.cmd) (cmdFunction b.cmd) b.opA

/-- The command word of each command (30_encoding.md R59). -/
def Instr.cmd : Instr → BitVec 8
  | .getwS _ => 0x00
  | .setwS _ => 0x01
  | .extractD _ => 0x10
  | .insertD _ _ => 0x11
  | .gethiD _ => 0x12
  | .getloD _ => 0x13
  | .sethiD _ _ => 0x14
  | .setloD _ _ => 0x15
  | .extractX _ => 0x20
  | .insertX _ _ => 0x21
  | .getmanhX _ => 0x22
  | .getmanlX _ => 0x23
  | .setmanhX _ _ => 0x24
  | .setmanlX _ _ => 0x25
  | .getexpX _ => 0x26
  | .setexpX _ _ => 0x27
  | .signbitS _ => 0x40
  | .copysignS _ _ => 0x41
  | .signbitD _ => 0x50
  | .copysignD _ _ => 0x51
  | .signbitX _ => 0x60
  | .copysignX _ _ => 0x61
  | .nextafterS _ _ => 0x80
  | .nextafterD _ _ => 0x90
  | .nextafterX _ _ => 0xA0
  | .frflags => 0xC0
  | .fwflags _ => 0xC1

/-- What the command puts on `op_a`, the bits it ignores 0 (30_encoding.md R60). -/
def Instr.opA : Instr → Pattern
  | .getwS a => a.toNat
  | .setwS w => w.toNat
  | .extractD a => a.toNat
  | .insertD hi _ => hi.toNat
  | .gethiD a => a.toNat
  | .getloD a => a.toNat
  | .sethiD a _ => a.toNat
  | .setloD a _ => a.toNat
  | .extractX a => a
  | .insertX se _ => se
  | .getmanhX a => a
  | .getmanlX a => a
  | .setmanhX a _ => a
  | .setmanlX a _ => a
  | .getexpX a => a
  | .setexpX a _ => a
  | .signbitS x => x.toNat
  | .copysignS x _ => x.toNat
  | .signbitD x => x.toNat
  | .copysignD x _ => x.toNat
  | .signbitX x => x
  | .copysignX x _ => x
  | .nextafterS x _ => x.toNat
  | .nextafterD x _ => x.toNat
  | .nextafterX x _ => x
  | .frflags => 0
  | .fwflags v => v.toNat

/-- What the command puts on `op_b`, 0 where it ignores it (30_encoding.md R60). -/
def Instr.opB : Instr → Pattern
  | .getwS _ => 0
  | .setwS _ => 0
  | .extractD _ => 0
  | .insertD _ lo => lo.toNat
  | .gethiD _ => 0
  | .getloD _ => 0
  | .sethiD _ w => w.toNat
  | .setloD _ w => w.toNat
  | .extractX _ => 0
  | .insertX _ m => m
  | .getmanhX _ => 0
  | .getmanlX _ => 0
  | .setmanhX _ w => w
  | .setmanlX _ w => w
  | .getexpX _ => 0
  | .setexpX _ w => w
  | .signbitS _ => 0
  | .copysignS _ y => y.toNat
  | .signbitD _ => 0
  | .copysignD _ y => y.toNat
  | .signbitX _ => 0
  | .copysignX _ y => y
  | .nextafterS _ y => y.toNat
  | .nextafterD _ y => y.toNat
  | .nextafterX _ y => y
  | .frflags => 0
  | .fwflags _ => 0

/-- How many low bits of `op_a` the command consumes (30_encoding.md R60; 20_memory.md R46). -/
def Instr.widthA (x : ExtLayout) : Instr → Nat
  | .getwS _ => 32
  | .setwS _ => 32
  | .extractD _ => 64
  | .insertD _ _ => 32
  | .gethiD _ => 64
  | .getloD _ => 64
  | .sethiD _ _ => 64
  | .setloD _ _ => 64
  | .extractX _ => x.width
  | .insertX _ _ => x.expW + 1
  | .getmanhX _ => x.width
  | .getmanlX _ => x.width
  | .setmanhX _ _ => x.width
  | .setmanlX _ _ => x.width
  | .getexpX _ => x.width
  | .setexpX _ _ => x.width
  | .signbitS _ => 32
  | .copysignS _ _ => 32
  | .signbitD _ => 64
  | .copysignD _ _ => 64
  | .signbitX _ => x.width
  | .copysignX _ _ => x.width
  | .nextafterS _ _ => 32
  | .nextafterD _ _ => 64
  | .nextafterX _ _ => x.width
  | .frflags => 0
  | .fwflags _ => 4

/-- How many low bits of `op_b` the command consumes (30_encoding.md R60; 20_memory.md R46). -/
def Instr.widthB (x : ExtLayout) : Instr → Nat
  | .getwS _ => 0
  | .setwS _ => 0
  | .extractD _ => 0
  | .insertD _ _ => 32
  | .gethiD _ => 0
  | .getloD _ => 0
  | .sethiD _ _ => 32
  | .setloD _ _ => 32
  | .extractX _ => 0
  | .insertX _ _ => x.trailW
  | .getmanhX _ => 0
  | .getmanlX _ => 0
  | .setmanhX _ _ => x.manhW
  | .setmanlX _ _ => x.manlW
  | .getexpX _ => 0
  | .setexpX _ _ => x.expW
  | .signbitS _ => 0
  | .copysignS _ _ => 32
  | .signbitD _ => 0
  | .copysignD _ _ => 64
  | .signbitX _ => 0
  | .copysignX _ _ => x.width
  | .nextafterS _ _ => 32
  | .nextafterD _ _ => 64
  | .nextafterX _ _ => x.width
  | .frflags => 0
  | .fwflags _ => 0

/-- The beat of a well-formed command (30_encoding.md R55, R59, R60). -/
def encode (i : Instr) : Beat := { cmd := i.cmd, opA := i.opA, opB := i.opB }

/-- A beat as a single number `{cmd, op_a, op_b}`, `8 + 2W` bits (30_encoding.md R55). -/
def beatNumber (c : Config) (b : Beat) : Nat := cat (cat b.cmd.toNat c.busW b.opA) c.busW b.opB

/-- The beat a single number stands for (30_encoding.md R55). -/
def beatOfNumber (c : Config) (n : Nat) : Beat :=
  { cmd := BitVec.ofNat 8 (field n (2 * c.busW) 8), opA := field n c.busW c.busW, opB := field n 0 c.busW }

/-- The beat whose words, first word lowest, are the low `nbits` bits of `w`: the command word, then `op_a`, then
`op_b` (DESIGN CHOICE, log 13; every row of the opcode table gives the command word alone, and its operands are then
0). -/
def beatOfTableWord (c : Config) (nbits w : Nat) : Beat :=
  let v := w % 2 ^ nbits
  { cmd := BitVec.ofNat 8 v, opA := field v 8 c.busW, opB := field v (8 + c.busW) c.busW }

/-- The command the decoder reads from an opcode-table word, in the default configuration. -/
def decodeTableWord (nbits w : Nat) : Option Instr :=
  (decode Config.default (beatOfTableWord Config.default nbits w)).toOption

end Sys2Proof
end

