-- ==== Sys2Proof/Machine/Flags.lean ====
section
/-! DEFINITION. The flag bits (10_state.md R23), the vectors a NEXTAFTER raises (42_nextafter.md R123), and how FFLAGS
accumulates and is written (10_state.md R24, R39; 43_system.md R141). No other command raises a flag. -/

namespace Sys2Proof

/-- Bit 0, inexact (10_state.md R23). -/
def flagNX : FlagBits := 0x1

/-- Bit 1, underflow (10_state.md R23). -/
def flagUF : FlagBits := 0x2

/-- Bit 2, overflow (10_state.md R23). -/
def flagOF : FlagBits := 0x4

/-- Bit 3, invalid operation (10_state.md R23). -/
def flagNV : FlagBits := 0x8

/-- Step 1: NV exactly when NAN_ADD reports it (42_nextafter.md R123). -/
def nanFlags (nv : Bool) : FlagBits := if nv then flagNV else 0

/-- Step 3: UF and NX (42_nextafter.md R115, R123; PRESUMED, log 12). -/
def zeroSourceFlags : FlagBits := flagUF ||| flagNX

/-- Step 5: OF and NX (42_nextafter.md R117, R123; PRESUMED, log 12). -/
def overflowFlags : FlagBits := flagOF ||| flagNX

/-- Step 6: UF and NX, but for a zero result under UF_ON_ZERO_RESULT = false (42_nextafter.md R118, R123). -/
def underflowFlags (c : Config) (nonzeroResult : Bool) : FlagBits :=
  if nonzeroResult || c.ufOnZeroResult then flagUF ||| flagNX else 0

/-- What a build shows of a flag vector: all of it, or 0 where HAS_FLAGS is false (10_state.md R39). -/
def shownFlags (c : Config) (f : FlagBits) : FlagBits := if c.hasFlags then f else 0

/-- `FFLAGS <- FFLAGS | flags` (10_state.md R24); no register to change where HAS_FLAGS is false (R39, DESIGN CHOICE,
log 14). -/
def accumulateFlags (c : Config) (old raised : FlagBits) : FlagBits := if c.hasFlags then old ||| raised else old

/-- `FFLAGS <- v` (43_system.md R141); no effect where HAS_FLAGS is false (10_state.md R39, DESIGN CHOICE, log 14). -/
def overwriteFlags (c : Config) (old v : FlagBits) : FlagBits := if c.hasFlags then v else old

end Sys2Proof
end

