-- ==== Sys2Proof/Machine/State.lean ====
section
/-! DEFINITION. The state: the one register FFLAGS (10_state.md R20), the output ports (R35), the input ports as the
list of cycles the host will drive (DESIGN CHOICE, log 1), the configuration (DESIGN CHOICE, log 3) and the index of
the free values (DESIGN CHOICE, log 6). -/

namespace Sys2Proof.Machine

/-- There is no fault: "No behaviour of this block is treated as fault or stuck" (93_implementation_defined.md;
60_exceptions.md R150, 42_nextafter.md R127; DEDUCED, log 9). The type has no constructor, so nothing raises one. -/
inductive Fault : Type
deriving DecidableEq, Repr

/-- Why a step answers without a meaning. -/
inductive Refusal where
  /-- An instruction with no meaning yet; raised by exec's arm of that instruction and by nothing else. Safe: nothing
  can be proved of a run that stops. No arm raises it in this model. -/
  | notModelled (mnemonic : String)
  /-- The configuration breaks the constraint of 00_scope.md R9: "refuse a configuration that breaks the constraint of
  rule R9" (93_implementation_defined.md #1). Raised by step, before anything else. Safe: no such block is built. -/
  | extLayout
deriving DecidableEq, Repr

/-- The input ports in one clock cycle: `rst`, `cmd_valid`, and `cmd`, `op_a`, `op_b` (10_state.md R35). -/
structure InCycle where
  rst      : Bool
  cmdValid : Bool
  beat     : Beat
deriving DecidableEq, Repr

/-- The output ports in the latest cycle, but `fflags` (10_state.md R35). -/
structure Outputs where
  rspValid : Bool
  res      : Pattern
  flags    : FlagBits
  err      : Bool
deriving DecidableEq, Repr

/-- The machine. `fflags` is the whole architectural state (10_state.md R20). -/
structure State where
  /-- FFLAGS: bit 0 NX, bit 1 UF, bit 2 OF, bit 3 NV (10_state.md R23) -/
  fflags  : FlagBits
  /-- the output ports `rsp_valid`, `res`, `flags`, `err` (10_state.md R35) -/
  out     : Outputs
  /-- the input ports in the coming cycles, the next one first; idle after the last (00_scope.md R8; DESIGN CHOICE, log 1) -/
  inputs  : List InCycle
  /-- the build-time parameters (00_scope.md R9 to R13; DESIGN CHOICE, log 3) -/
  cfg     : Config
  /-- the next unused index of the free values on an unanswered `res` (DESIGN CHOICE, log 6) -/
  freeIdx : Nat
deriving DecidableEq, Repr

/-- The machine right after reset: all four flags clear, `rsp_valid`, `err` and `flags` 0, `res` not specified
(10_state.md R38, 70_reset_and_hazards.md R170; DESIGN CHOICE, log 17), nothing yet presented by the host. -/
def State.reset : State :=
  { fflags := 0
    out := { rspValid := false, res := Config.unansweredRes 0 % 2 ^ Config.default.busW, flags := 0, err := false }
    inputs := []
    cfg := Config.default
    freeIdx := 1 }

end Sys2Proof.Machine
end

