-- ==== Sys2Proof/Machine/Ops.lean ====
section
/-! DEFINITION. The operations every command is made of: reading FFLAGS, answering a command, writing FFLAGS, and the
cycles that answer none. There is no memory (20_memory.md R40) and no exception to take or return from (60_exceptions.md
R150, R155, R156); the one error response is respondIllegal (R152). -/

namespace Sys2Proof.Machine

/-- The value of FFLAGS, which is also the port `fflags` (10_state.md R23, R35); 0 where HAS_FLAGS is false (R39). -/
def State.fflagsPort (s : State) : FlagBits := shownFlags s.cfg s.fflags

/-- Answer a command with `res` and the flags it raised; the flags accumulate in FFLAGS (10_state.md R24, R36). A
result narrower than the bus is zero-extended, which leaves its number as it is (30_encoding.md R61). -/
def State.respond (s : State) (res : Pattern) (raised : FlagBits) : State :=
  { s with
    fflags := accumulateFlags s.cfg s.fflags raised
    out := { rspValid := true, res := res, flags := shownFlags s.cfg raised, err := false } }

/-- Answer FWFLAGS: FFLAGS is overwritten, `res` is 0 and no flag is raised (43_system.md R141, 10_state.md R24). -/
def State.respondWriteFlags (s : State) (v : FlagBits) : State :=
  { s with
    fflags := overwriteFlags s.cfg s.fflags v
    out := { rspValid := true, res := 0, flags := 0, err := false } }

/-- The illegal-command response: `err` 1, `res` 0, `flags` 0, FFLAGS unchanged, nothing recorded (30_encoding.md R62,
60_exceptions.md R152; DESIGN CHOICE, log 8). -/
def State.respondIllegal (s : State) : State :=
  { s with out := { rspValid := true, res := 0, flags := 0, err := true } }

/-- The output ports in a cycle that answers no command; `res` is a free value (10_state.md R37, R38; DESIGN CHOICE,
log 6). -/
def State.unanswered (s : State) : Outputs :=
  { rspValid := false, res := Config.unansweredRes s.freeIdx % 2 ^ s.cfg.busW, flags := 0, err := false }

/-- A cycle with `cmd_valid = 0`: FFLAGS holds and nothing is answered (10_state.md R37). -/
def State.idleCycle (s : State) : State := { s with out := s.unanswered, freeIdx := s.freeIdx + 1 }

/-- A cycle with `rst = 1`: `FFLAGS <- 0` and nothing is answered (70_reset_and_hazards.md R170). -/
def State.resetCycle (s : State) : State :=
  { s with fflags := 0, out := s.unanswered, freeIdx := s.freeIdx + 1 }

/-- The input ports of a cycle in which the host does nothing (10_state.md R37). -/
def InCycle.idle : InCycle := { rst := false, cmdValid := false, beat := { cmd := 0, opA := 0, opB := 0 } }

/-- The input ports of a cycle in which the host presents a command (10_state.md R36). -/
def InCycle.command (b : Beat) : InCycle := { rst := false, cmdValid := true, beat := b }

/-- The input ports in the coming cycle; a host that presents nothing further leaves the block idle (00_scope.md R8). -/
def State.ports (s : State) : InCycle := s.inputs.headD InCycle.idle

/-- The coming cycle's inputs are taken: the host's list goes on behind them. -/
def State.advance (s : State) : State := { s with inputs := s.inputs.tail }

end Sys2Proof.Machine
end

