-- ==== Sys2Proof/Machine/Accessors.lean ====
section
/-! DEFINITION. The word accessors (40_word_accessors.md R76 to R95): every one moves bits unchanged, raises no flag,
never sets `err` and reads no state. -/

namespace Sys2Proof

/-- `a[T-1:ML]`: the high mantissa word, NBIT included (40_word_accessors.md R90). -/
def ExtLayout.manh (x : ExtLayout) (a : Pattern) : Nat := field a x.manlW x.manhW

/-- `a[ML-1:0]`: the low mantissa word (40_word_accessors.md R91). -/
def ExtLayout.manl (x : ExtLayout) (a : Pattern) : Nat := field a 0 x.manlW

/-- `a[EXT_W-2:T]`: the exponent field (40_word_accessors.md R94). -/
def ExtLayout.exp (x : ExtLayout) (a : Pattern) : Nat := field a x.trailW x.expW

/-- `a[EXT_W-1]`: the sign (10_state.md R29). -/
def ExtLayout.sign (x : ExtLayout) (a : Pattern) : Bool := a.testBit (x.width - 1)

/-- `{s, e, manh, manl}`: an extended pattern from its four fields (10_state.md R29). -/
def ExtLayout.join (x : ExtLayout) (s : Bool) (e manh manl : Nat) : Pattern :=
  cat (cat (cat s.toNat x.expW e) x.manhW manh) x.manlW manl

namespace Machine

/-- GETW.S: `res <- zext_W(a)` (40_word_accessors.md R80). -/
def execGetwS (a : Word) (s : State) : Host.Outcome State Fault Refusal := .next (s.respond a.toNat 0)

/-- SETW.S: `res <- zext_W(w)` (40_word_accessors.md R81). -/
def execSetwS (w : Word) (s : State) : Host.Outcome State Fault Refusal := .next (s.respond w.toNat 0)

/-- EXTRACT.D: `res <- zext_W({HI(a), LO(a)})` (40_word_accessors.md R82). -/
def execExtractD (a : DWord) (s : State) : Host.Outcome State Fault Refusal :=
  .next (s.respond (joinWords (hiWord a) (loWord a)).toNat 0)

/-- INSERT.D: `res <- zext_W({hi, lo})` (40_word_accessors.md R83). -/
def execInsertD (hi lo : Word) (s : State) : Host.Outcome State Fault Refusal :=
  .next (s.respond (joinWords hi lo).toNat 0)

/-- GETHI.D: `res <- zext_W(HI(a))` (40_word_accessors.md R84). -/
def execGethiD (a : DWord) (s : State) : Host.Outcome State Fault Refusal :=
  .next (s.respond (hiWord a).toNat 0)

/-- GETLO.D: `res <- zext_W(LO(a))` (40_word_accessors.md R85). -/
def execGetloD (a : DWord) (s : State) : Host.Outcome State Fault Refusal :=
  .next (s.respond (loWord a).toNat 0)

/-- SETHI.D: `res <- zext_W({w, LO(a)})` (40_word_accessors.md R86). -/
def execSethiD (a : DWord) (w : Word) (s : State) : Host.Outcome State Fault Refusal :=
  .next (s.respond (joinWords w (loWord a)).toNat 0)

/-- SETLO.D: `res <- zext_W({HI(a), w})` (40_word_accessors.md R87). -/
def execSetloD (a : DWord) (w : Word) (s : State) : Host.Outcome State Fault Refusal :=
  .next (s.respond (joinWords (hiWord a) w).toNat 0)

/-- EXTRACT.X: `res <- zext_W(a)`, NBIT as stored (40_word_accessors.md R88). -/
def execExtractX (a : Pattern) (s : State) : Host.Outcome State Fault Refusal := .next (s.respond a 0)

/-- INSERT.X: `res <- zext_W({se, m})`, NBIT as given (40_word_accessors.md R89). -/
def execInsertX (se m : Pattern) (s : State) : Host.Outcome State Fault Refusal :=
  .next (s.respond (cat se s.cfg.ext.trailW m) 0)

/-- GETMANH.X: `res <- zext_W(a[T-1:ML])` (40_word_accessors.md R90). -/
def execGetmanhX (a : Pattern) (s : State) : Host.Outcome State Fault Refusal :=
  .next (s.respond (s.cfg.ext.manh a) 0)

/-- GETMANL.X: `res <- zext_W(a[ML-1:0])` (40_word_accessors.md R91). -/
def execGetmanlX (a : Pattern) (s : State) : Host.Outcome State Fault Refusal :=
  .next (s.respond (s.cfg.ext.manl a) 0)

/-- SETMANH.X: `res <- zext_W({a[EXT_W-1:T], w, a[ML-1:0]})` (40_word_accessors.md R92). -/
def execSetmanhX (a w : Pattern) (s : State) : Host.Outcome State Fault Refusal :=
  .next (s.respond (s.cfg.ext.join (s.cfg.ext.sign a) (s.cfg.ext.exp a) w (s.cfg.ext.manl a)) 0)

/-- SETMANL.X: `res <- zext_W({a[EXT_W-1:ML], w})` (40_word_accessors.md R93). -/
def execSetmanlX (a w : Pattern) (s : State) : Host.Outcome State Fault Refusal :=
  .next (s.respond (s.cfg.ext.join (s.cfg.ext.sign a) (s.cfg.ext.exp a) (s.cfg.ext.manh a) w) 0)

/-- GETEXP.X: `res <- zext_W(a[EXT_W-2:T])`; the sign is not part of it (40_word_accessors.md R94). -/
def execGetexpX (a : Pattern) (s : State) : Host.Outcome State Fault Refusal :=
  .next (s.respond (s.cfg.ext.exp a) 0)

/-- SETEXP.X: `res <- zext_W({a[EXT_W-1], w, a[T-1:0]})` (40_word_accessors.md R95). -/
def execSetexpX (a w : Pattern) (s : State) : Host.Outcome State Fault Refusal :=
  .next (s.respond (s.cfg.ext.join (s.cfg.ext.sign a) w (s.cfg.ext.manh a) (s.cfg.ext.manl a)) 0)

end Machine
end Sys2Proof
end

