-- ==== Sys2Proof/Machine/Format.lean ====
section
/-! DEFINITION. The helper functions and named patterns of 10_state.md R30 to R32, over a format descriptor. -/

namespace Sys2Proof

/-- `sign(F,v) = v[N-1]` (10_state.md R31). -/
def Fmt.sign (F : Fmt) (v : Pattern) : Bool := v.testBit (F.width - 1)

/-- `expf(F,v) = v[N-2 : T]` (10_state.md R31). -/
def Fmt.expf (F : Fmt) (v : Pattern) : Nat := field v F.trailW F.expW

/-- `trail(F,v) = v[T-1 : 0]` (10_state.md R31). -/
def Fmt.trail (F : Fmt) (v : Pattern) : Nat := field v 0 F.trailW

/-- `frac(F,v) = trail(F,v) & ~NB`: the fraction, the leading bit masked (10_state.md R31; 90_conflicts.md C6). -/
def Fmt.frac (F : Fmt) (v : Pattern) : Nat := F.trail v &&& (mask F.trailW ^^^ F.nb)

/-- `mag(F,v) = expf * 2^FW + frac`, a mathematical integer (10_state.md R31). -/
def Fmt.mag (F : Fmt) (v : Pattern) : Nat := F.expf v * 2 ^ F.fracW + F.frac v

/-- `ord(F,v)`: the signed magnitude; both zeros have `ord` 0 (10_state.md R31). -/
def Fmt.ord (F : Fmt) (v : Pattern) : Int := if F.sign v then -(F.mag v : Int) else (F.mag v : Int)

/-- `asm(F,s,e,f) = {s, e, t}` with `t = f | (NB if e != 0 else 0)` (10_state.md R31). -/
def Fmt.asm (F : Fmt) (s : Bool) (e f : Nat) : Pattern :=
  cat (cat s.toNat F.expW e) F.trailW (f ||| (if e ≠ 0 then F.nb else 0))

/-- `class(F,v)` (10_state.md R30). -/
def Fmt.classOf (F : Fmt) (v : Pattern) : FpClass :=
  if F.expf v = F.expMax then (if F.frac v = 0 then .infinity else .nan)
  else if F.expf v = 0 then (if F.frac v = 0 then .zero else .subnormal)
  else .normal

/-- A pattern is a NaN (10_state.md R30). -/
def Fmt.isNan (F : Fmt) (v : Pattern) : Bool := decide (F.classOf v = .nan)

/-- Canonical: the leading bit is 1 exactly when the exponent field is nonzero (00_scope.md R19, 42_nextafter.md R125;
DESIGN CHOICE, log 11). -/
def Fmt.canonical (F : Fmt) (v : Pattern) : Bool :=
  decide (F.trail v &&& F.nb = if F.expf v ≠ 0 then F.nb else 0)

/-- `ZERO(s)` (10_state.md R32). -/
def Fmt.zeroPat (F : Fmt) (s : Bool) : Pattern := F.asm s 0 0

/-- `MINSUB(s)` (10_state.md R32). -/
def Fmt.minSub (F : Fmt) (s : Bool) : Pattern := F.asm s 0 1

/-- `MAXSUB(s)` (10_state.md R32). -/
def Fmt.maxSub (F : Fmt) (s : Bool) : Pattern := F.asm s 0 (mask F.fracW)

/-- `MINNORM(s)` (10_state.md R32). -/
def Fmt.minNorm (F : Fmt) (s : Bool) : Pattern := F.asm s 1 0

/-- `MAXFIN(s)` (10_state.md R32). -/
def Fmt.maxFin (F : Fmt) (s : Bool) : Pattern := F.asm s (F.expMax - 1) (mask F.fracW)

/-- `INF(s)` (10_state.md R32). -/
def Fmt.infPat (F : Fmt) (s : Bool) : Pattern := F.asm s F.expMax 0

end Sys2Proof
end

