-- ==== Sys2Proof/Machine/NanAdd.lean ====
section
/-! DEFINITION. NAN_ADD, the NaN-producing addition of step 1 (00_scope.md R13, 42_nextafter.md R112, R113). -/

namespace Sys2Proof

/-- The NaN of format `F` a choice stands for: any sign, any nonzero fraction, the leading bit either way. Every NaN
pattern of the format is one of these, and nothing else is (property P1 of 42_nextafter.md R113; DESIGN CHOICE, log 4).
-/
def freeNan (F : Fmt) (ch : NanChoice) : Pattern :=
  cat (cat ch.sign.toNat F.expW F.expMax) F.trailW
    ((1 + ch.fraction % (2 ^ F.fracW - 1)) ||| (if ch.lead then F.nb else 0))

/-- `q`: the top fraction bit, the quiet bit of NAN_ADD_DEFAULT (42_nextafter.md R113). -/
def quietBit (F : Fmt) : Nat := 2 ^ (F.fracW - 1)

/-- A NaN whose quiet bit is 0 (42_nextafter.md R113). -/
def isSignalling (F : Fmt) (v : Pattern) : Bool := F.isNan v && decide (v &&& quietBit F = 0)

/-- `NAN_ADD_DEFAULT`: the first NaN operand with its quiet bit and NBIT set; invalid exactly for a signalling operand
(42_nextafter.md R113; PRESUMED, log 5). -/
def nanAddDefault (F : Fmt) (x y : Pattern) : Pattern × Bool :=
  ((if F.isNan x then x else y) ||| quietBit F ||| F.nb, isSignalling F x || isSignalling F y)

/-- `NAN_ADD(F, x, y) -> (r, nv)` of a configuration (00_scope.md R13, 42_nextafter.md R113). -/
def nanAdd (c : Config) (id : FormatId) (x y : Pattern) : Pattern × Bool :=
  match c.nanAdd with
  | .uninterpreted =>
    (freeNan (c.fmt id) (Config.nanChoice id c.ext x y), (Config.nanChoice id c.ext x y).invalid)
  | .ieeeDefault => nanAddDefault (c.fmt id) x y

end Sys2Proof
end

