-- ==== Sys2Proof/Machine/NextAfter.lean ====
section
/-! DEFINITION. The adjacent-value engine. nextAfter is the seven steps of 42_nextafter.md R110 over a format; the three
commands run the word-level forms of R120, R121 and R122. That the two agree is stated, not assumed (R111). -/

namespace Sys2Proof

/-- The direction of step 4: the magnitude grows when `x` moves away from zero (42_nextafter.md R116). -/
def stepsOutward (ox oy : Int) (sx : Bool) : Bool := decide (ox < oy) == !sx

/-- `NextAfter(F, x, y)`: the seven steps, once for all formats (42_nextafter.md R110). -/
def nextAfter (c : Config) (id : FormatId) (x y : Pattern) : Pattern × FlagBits :=
  let F := c.fmt id
  -- step 1, NaN propagation (R112)
  if F.isNan x || F.isNan y then ((nanAdd c id x y).1, nanFlags (nanAdd c id x y).2)
  -- step 2, equality by value (R114)
  else if F.ord x = F.ord y then (y, 0)
  -- step 3, zero source (R115)
  else if F.mag x = 0 then (F.minSub (F.sign y), zeroSourceFlags)
  else
    -- step 4, the one-ULP step (R116)
    let m := if stepsOutward (F.ord x) (F.ord y) (F.sign x) then F.mag x + 1 else F.mag x - 1
    let e := m / 2 ^ F.fracW
    let f := m % 2 ^ F.fracW
    -- step 5, overflow (R117)
    if e = F.expMax then (F.infPat (F.sign x), overflowFlags)
    -- step 6, underflow (R118)
    else if e = 0 then (F.asm (F.sign x) e f, underflowFlags c (decide (f ≠ 0)))
    -- step 7 (R119)
    else (F.asm (F.sign x) e f, 0)

/-- A magnitude under a sign, as an integer: the `ox`, `oy` of 42_nextafter.md R120 to R122. -/
def signedMag (s : Bool) (m : Nat) : Int := if s then -(m : Int) else (m : Int)

/-- NEXTAFTER.S over a single word (42_nextafter.md R120). -/
def nextAfterS (c : Config) (x y : Word) : Word × FlagBits :=
  let ix := x &&& 0x7fffffff
  let iy := y &&& 0x7fffffff
  let ox := signedMag (x.getLsbD 31) ix.toNat
  let oy := signedMag (y.getLsbD 31) iy.toNat
  if ix > 0x7f800000 ∨ iy > 0x7f800000 then
    (BitVec.ofNat 32 (nanAdd c .S x.toNat y.toNat).1, nanFlags (nanAdd c .S x.toNat y.toNat).2)
  else if ox = oy then (y, 0)
  else if ix = 0 then ((y &&& 0x80000000) ||| 0x00000001, zeroSourceFlags)
  else
    let w := if stepsOutward ox oy (x.getLsbD 31) then x + 1 else x - 1
    let e := w &&& 0x7f800000
    if e = 0x7f800000 then ((x &&& 0x80000000) ||| 0x7f800000, overflowFlags)
    else if e = 0 then (w, underflowFlags c (decide (w &&& 0x7fffffff ≠ 0)))
    else (w, 0)

/-- The NaN test of a binary64 pattern on its words (42_nextafter.md R121, `nanx`). -/
def isNanWords (i l : Word) : Bool := decide (i > 0x7ff00000) || (decide (i = 0x7ff00000) && decide (l ≠ 0))

/-- Step 4 of NEXTAFTER.D: the low word steps by one and carries into, or borrows from, the high word "exactly as
unsigned 32-bit wraparound arithmetic" (42_nextafter.md R121). -/
def stepWords (outward : Bool) (h l : Word) : Word × Word :=
  if outward then (if l + 1 = 0 then h + 1 else h, l + 1) else (if l = 0 then h - 1 else h, l - 1)

/-- NEXTAFTER.D over two words (42_nextafter.md R121). -/
def nextAfterD (c : Config) (x y : DWord) : DWord × FlagBits :=
  let hx := hiWord x
  let lx := loWord x
  let hy := hiWord y
  let ly := loWord y
  let ix := hx &&& 0x7fffffff
  let iy := hy &&& 0x7fffffff
  let ox := signedMag (hx.getLsbD 31) (ix.toNat * 2 ^ 32 + lx.toNat)
  let oy := signedMag (hy.getLsbD 31) (iy.toNat * 2 ^ 32 + ly.toNat)
  if isNanWords ix lx || isNanWords iy ly then
    (BitVec.ofNat 64 (nanAdd c .D x.toNat y.toNat).1, nanFlags (nanAdd c .D x.toNat y.toNat).2)
  else if ox = oy then (y, 0)
  else if ix ||| lx = 0 then (joinWords (hy &&& 0x80000000) 0x00000001, zeroSourceFlags)
  else
    let h := (stepWords (stepsOutward ox oy (hx.getLsbD 31)) hx lx).1
    let l := (stepWords (stepsOutward ox oy (hx.getLsbD 31)) hx lx).2
    let e := h &&& 0x7ff00000
    if e = 0x7ff00000 then (joinWords ((hx &&& 0x80000000) ||| 0x7ff00000) 0x00000000, overflowFlags)
    else if e = 0 then (joinWords h l, underflowFlags c (decide ((h &&& 0x7fffffff) ||| l ≠ 0)))
    else (joinWords h l, 0)

/-- `FH`: the width of `manh` below NBIT (42_nextafter.md R122). -/
def ExtLayout.fracHighW (x : ExtLayout) : Nat := if x.nbit ≠ 0 then x.manhW - 1 else x.manhW

/-- `manh & ~NB`: the high mantissa word with NBIT masked (42_nextafter.md R122, `fhx`). -/
def ExtLayout.fracHigh (x : ExtLayout) (v : Pattern) : Nat := x.manh v &&& (mask x.manhW ^^^ x.nbit)

/-- The NaN test with NBIT masked (42_nextafter.md R122, `nanx`). -/
def ExtLayout.isNan (x : ExtLayout) (v : Pattern) : Bool :=
  decide (x.exp v = mask x.expW) && decide (x.fracHigh v ||| x.manl v ≠ 0)

/-- `(ex * 2^FH + fhx) * 2^ML + mlx` (42_nextafter.md R122, `mx`). -/
def ExtLayout.mag (x : ExtLayout) (v : Pattern) : Nat :=
  (x.exp v * 2 ^ x.fracHighW + x.fracHigh v) * 2 ^ x.manlW + x.manl v

/-- The three fields step 4 of NEXTAFTER.X works on: exponent field, `manh` below NBIT, `manl` (42_nextafter.md R122).
-/
structure ExtFields where
  e  : Nat
  fh : Nat
  ml : Nat
deriving DecidableEq, Repr

/-- Step 4, increment: `manl` carries into the fraction part of `manh`, and that into the exponent field
(42_nextafter.md R122). -/
def ExtLayout.stepUp (x : ExtLayout) (v : ExtFields) : ExtFields :=
  let ml := (v.ml + 1) % 2 ^ x.manlW
  if ml = 0 then
    let fh := (v.fh + 1) % 2 ^ x.fracHighW
    { e := if fh = 0 then v.e + 1 else v.e, fh := fh, ml := ml }
  else { e := v.e, fh := v.fh, ml := ml }

/-- Step 4, decrement: `manl` borrows from the fraction part of `manh`, and that from the exponent field
(42_nextafter.md R122). -/
def ExtLayout.stepDown (x : ExtLayout) (v : ExtFields) : ExtFields :=
  let ml := (v.ml + (2 ^ x.manlW - 1)) % 2 ^ x.manlW
  if v.ml = 0 then
    { e := if v.fh = 0 then v.e - 1 else v.e, fh := (v.fh + (2 ^ x.fracHighW - 1)) % 2 ^ x.fracHighW, ml := ml }
  else { e := v.e, fh := v.fh, ml := ml }

/-- The fields of an operand, NBIT masked (42_nextafter.md R122). -/
def ExtLayout.fields (x : ExtLayout) (v : Pattern) : ExtFields :=
  { e := x.exp v, fh := x.fracHigh v, ml := x.manl v }

/-- NEXTAFTER.X over the exponent field and two mantissa words (42_nextafter.md R122). -/
def nextAfterX (c : Config) (x y : Pattern) : Pattern × FlagBits :=
  let L := c.ext
  let ox := signedMag (L.sign x) (L.mag x)
  let oy := signedMag (L.sign y) (L.mag y)
  if L.isNan x || L.isNan y then ((nanAdd c .X x y).1, nanFlags (nanAdd c .X x y).2)
  else if ox = oy then (y, 0)
  else if L.exp x = 0 ∧ L.fracHigh x ||| L.manl x = 0 then (L.join (L.sign y) 0 0 1, zeroSourceFlags)
  else
    let v := if stepsOutward ox oy (L.sign x) then L.stepUp (L.fields x) else L.stepDown (L.fields x)
    if v.e = mask L.expW then (L.join (L.sign x) (mask L.expW) L.nbit 0, overflowFlags)
    else
      let r := L.join (L.sign x) v.e (v.fh ||| (if v.e ≠ 0 then L.nbit else 0)) v.ml
      if v.e = 0 then (r, underflowFlags c (decide (v.fh ||| v.ml ≠ 0)))
      else (r, 0)

namespace Machine

/-- NEXTAFTER.S (42_nextafter.md R120). -/
def execNextafterS (x y : Word) (s : State) : Host.Outcome State Fault Refusal :=
  .next (s.respond (nextAfterS s.cfg x y).1.toNat (nextAfterS s.cfg x y).2)

/-- NEXTAFTER.D (42_nextafter.md R121). -/
def execNextafterD (x y : DWord) (s : State) : Host.Outcome State Fault Refusal :=
  .next (s.respond (nextAfterD s.cfg x y).1.toNat (nextAfterD s.cfg x y).2)

/-- NEXTAFTER.X (42_nextafter.md R122). -/
def execNextafterX (x y : Pattern) (s : State) : Host.Outcome State Fault Refusal :=
  .next (s.respond (nextAfterX s.cfg x y).1 (nextAfterX s.cfg x y).2)

end Machine
end Sys2Proof
end

