-- ==== Sys2Proof/Machine/SignPrimitives.lean ====
section
/-! DEFINITION. The sign primitives (41_sign_primitives.md R100 to R107): total functions of patterns that raise no
flag, never set `err` and read no state. SIGNBIT converts nothing (R107; 90_conflicts.md C2). -/

namespace Sys2Proof.Machine

/-- SIGNBIT.S: `res <- zext_W(x[31])` (41_sign_primitives.md R101). -/
def execSignbitS (x : Word) (s : State) : Host.Outcome State Fault Refusal :=
  .next (s.respond (x.getLsbD 31).toNat 0)

/-- SIGNBIT.D: `res <- zext_W(x[63])` (41_sign_primitives.md R102). -/
def execSignbitD (x : DWord) (s : State) : Host.Outcome State Fault Refusal :=
  .next (s.respond (x.getLsbD 63).toNat 0)

/-- SIGNBIT.X: `res <- zext_W(x[EXT_W-1])` (41_sign_primitives.md R103). -/
def execSignbitX (x : Pattern) (s : State) : Host.Outcome State Fault Refusal :=
  .next (s.respond (s.cfg.ext.sign x).toNat 0)

/-- `(x & 0x7fffffff) | (y & 0x80000000)`: the low 31 bits of `x` under the top bit of `y` (41_sign_primitives.md R104,
R105). -/
def copySignWord (x y : Word) : Word := (x &&& 0x7fffffff) ||| (y &&& 0x80000000)

/-- COPYSIGN.S: `res <- zext_W((x & 0x7fffffff) | (y & 0x80000000))` (41_sign_primitives.md R104). -/
def execCopysignS (x y : Word) (s : State) : Host.Outcome State Fault Refusal :=
  .next (s.respond (copySignWord x y).toNat 0)

/-- COPYSIGN.D, via the high word: `res <- zext_W({(hx & 0x7fffffff) | (hy & 0x80000000), LO(x)})`
(41_sign_primitives.md R105). -/
def execCopysignD (x y : DWord) (s : State) : Host.Outcome State Fault Refusal :=
  .next (s.respond (joinWords (copySignWord (hiWord x) (hiWord y)) (loWord x)).toNat 0)

/-- COPYSIGN.X: `res <- zext_W({y[EXT_W-1], x[EXT_W-2:0]})` (41_sign_primitives.md R106). -/
def execCopysignX (x y : Pattern) (s : State) : Host.Outcome State Fault Refusal :=
  .next (s.respond
    (cat (s.cfg.ext.sign y).toNat (s.cfg.ext.width - 1) (field x 0 (s.cfg.ext.width - 1))) 0)

end Sys2Proof.Machine
end

