-- ==== Sys2Proof/Machine/System.lean ====
section
/-! DEFINITION. The system commands FRFLAGS and FWFLAGS (43_system.md R140 to R142). There is no other. -/

namespace Sys2Proof.Machine

/-- FRFLAGS: `res <- zext_W(FFLAGS)`, FFLAGS unchanged (43_system.md R140). -/
def execFrflags (s : State) : Host.Outcome State Fault Refusal := .next (s.respond s.fflagsPort.toNat 0)

/-- FWFLAGS: `FFLAGS <- v`, `res <- 0` (43_system.md R141). -/
def execFwflags (v : FlagBits) (s : State) : Host.Outcome State Fault Refusal := .next (s.respondWriteFlags v)

end Sys2Proof.Machine
end

