-- ==== Sys2Proof/Machine/Dispatch.lean ====
section
/-! DEFINITION. One arm per command, each a direct call of its meaning (30_encoding.md R67: the decoder "routes each
command to exactly one leaf unit"). -/

namespace Sys2Proof.Machine

def exec (i : Instr) (s : State) : Host.Outcome State Fault Refusal :=
  match i with
  | .getwS a => Sys2Proof.Machine.execGetwS a s
  | .setwS w => Sys2Proof.Machine.execSetwS w s
  | .extractD a => Sys2Proof.Machine.execExtractD a s
  | .insertD hi lo => Sys2Proof.Machine.execInsertD hi lo s
  | .gethiD a => Sys2Proof.Machine.execGethiD a s
  | .getloD a => Sys2Proof.Machine.execGetloD a s
  | .sethiD a w => Sys2Proof.Machine.execSethiD a w s
  | .setloD a w => Sys2Proof.Machine.execSetloD a w s
  | .extractX a => Sys2Proof.Machine.execExtractX a s
  | .insertX se m => Sys2Proof.Machine.execInsertX se m s
  | .getmanhX a => Sys2Proof.Machine.execGetmanhX a s
  | .getmanlX a => Sys2Proof.Machine.execGetmanlX a s
  | .setmanhX a w => Sys2Proof.Machine.execSetmanhX a w s
  | .setmanlX a w => Sys2Proof.Machine.execSetmanlX a w s
  | .getexpX a => Sys2Proof.Machine.execGetexpX a s
  | .setexpX a w => Sys2Proof.Machine.execSetexpX a w s
  | .signbitS x => Sys2Proof.Machine.execSignbitS x s
  | .copysignS x y => Sys2Proof.Machine.execCopysignS x y s
  | .signbitD x => Sys2Proof.Machine.execSignbitD x s
  | .copysignD x y => Sys2Proof.Machine.execCopysignD x y s
  | .signbitX x => Sys2Proof.Machine.execSignbitX x s
  | .copysignX x y => Sys2Proof.Machine.execCopysignX x y s
  | .nextafterS x y => Sys2Proof.Machine.execNextafterS x y s
  | .nextafterD x y => Sys2Proof.Machine.execNextafterD x y s
  | .nextafterX x y => Sys2Proof.Machine.execNextafterX x y s
  | .frflags => Sys2Proof.Machine.execFrflags s
  | .fwflags v => Sys2Proof.Machine.execFwflags v s

end Sys2Proof.Machine
end

