-- ==== Sys2Proof/Machine/Step.lean ====
section
/-! DEFINITION. One clock cycle: reset has priority over a command (70_reset_and_hazards.md R170), a command is decoded
and answered (10_state.md R36), an illegal word gets the error response (60_exceptions.md R152), and a cycle with
neither is idle (10_state.md R37). -/

namespace Sys2Proof.Machine

/-- One step. The only refusal is of a configuration that breaks the constraint of 00_scope.md R9
(93_implementation_defined.md #1). -/
def step (s : State) : Host.Outcome State Fault Refusal :=
  if s.cfg.wf then
    if s.ports.rst then .next s.advance.resetCycle
    else if s.ports.cmdValid then
      match decode s.cfg s.ports.beat with
      | .ok i => exec i s.advance
      | .error _ => .next s.advance.respondIllegal
    else .next s.advance.idleCycle
  else .refused .extLayout

/-- The host presents, in the coming cycle, the command of an opcode-table word (DESIGN CHOICE, log 1, DESIGN CHOICE,
log 13). -/
def State.withFetchWord (s : State) (nbits w : Nat) : State :=
  { s with inputs := InCycle.command (beatOfTableWord s.cfg nbits w) :: s.inputs }

end Sys2Proof.Machine
end

