-- ==== Sys2Proof/Machine/Assembler.lean ====
section
/-! DEFINITION. The assembler notation of 30_encoding.md R65 and its pseudo-instructions R66, from mnemonic and operands
to the beat the host presents. The block knows nothing of it; the host binds names and forwards values (DESIGN CHOICE,
log 15). -/

namespace Sys2Proof

/-- The named patterns of 10_state.md R32, as an operand may name them (30_encoding.md R65). -/
inductive PatternName where
  | zero | minsub | maxsub | minnorm | maxfin | inf
deriving DecidableEq, Repr

/-- An operand: a hexadecimal pattern (or the value a name is bound to), or a named pattern with its sign
(30_encoding.md R65). -/
inductive AsmOperand where
  | value (v : Pattern)
  | named (negative : Bool) (p : PatternName)
deriving DecidableEq, Repr

/-- One line: a mnemonic with its suffix and at most two operands (30_encoding.md R65). -/
structure AsmLine where
  mnemonic : String
  opA      : Option AsmOperand
  opB      : Option AsmOperand
deriving DecidableEq, Repr

/-- What a mnemonic expands to: a command word, the format its named operands are read in, how many operands it
consumes, and whether it is a pseudo-instruction. -/
structure AsmRow where
  mnemonic : String
  cmd      : BitVec 8
  format   : Option FormatId
  operands : Nat
  pseudo   : Bool
deriving DecidableEq, Repr

/-- A row of 30_encoding.md R59 with the operand count of R60. -/
def asmCommand (m : String) (cmd : BitVec 8) (fmt : Option FormatId) (n : Nat) : AsmRow := ⟨m, cmd, fmt, n, false⟩

/-- A row of 30_encoding.md R66; the operand it does not write is the 0 of its expansion. -/
def asmPseudo (m : String) (cmd : BitVec 8) (fmt : Option FormatId) (n : Nat) : AsmRow := ⟨m, cmd, fmt, n, true⟩

/-- The accessors (30_encoding.md R59, R60). -/
def asmAccessors : List AsmRow :=
  [asmCommand "GETW.S" 0x00 (some .S) 1, asmCommand "SETW.S" 0x01 (some .S) 1,
   asmCommand "EXTRACT.D" 0x10 (some .D) 1, asmCommand "INSERT.D" 0x11 (some .D) 2,
   asmCommand "GETHI.D" 0x12 (some .D) 1, asmCommand "GETLO.D" 0x13 (some .D) 1,
   asmCommand "SETHI.D" 0x14 (some .D) 2, asmCommand "SETLO.D" 0x15 (some .D) 2,
   asmCommand "EXTRACT.X" 0x20 (some .X) 1, asmCommand "INSERT.X" 0x21 (some .X) 2,
   asmCommand "GETMANH.X" 0x22 (some .X) 1, asmCommand "GETMANL.X" 0x23 (some .X) 1,
   asmCommand "SETMANH.X" 0x24 (some .X) 2, asmCommand "SETMANL.X" 0x25 (some .X) 2,
   asmCommand "GETEXP.X" 0x26 (some .X) 1, asmCommand "SETEXP.X" 0x27 (some .X) 2]

/-- The other commands (30_encoding.md R59, R60). -/
def asmOperations : List AsmRow :=
  [asmCommand "SIGNBIT.S" 0x40 (some .S) 1, asmCommand "COPYSIGN.S" 0x41 (some .S) 2,
   asmCommand "SIGNBIT.D" 0x50 (some .D) 1, asmCommand "COPYSIGN.D" 0x51 (some .D) 2,
   asmCommand "SIGNBIT.X" 0x60 (some .X) 1, asmCommand "COPYSIGN.X" 0x61 (some .X) 2,
   asmCommand "NEXTAFTER.S" 0x80 (some .S) 2, asmCommand "NEXTAFTER.D" 0x90 (some .D) 2,
   asmCommand "NEXTAFTER.X" 0xA0 (some .X) 2, asmCommand "FRFLAGS" 0xC0 none 0, asmCommand "FWFLAGS" 0xC1 none 1]

/-- The pseudo-instructions (30_encoding.md R66). -/
def asmPseudos : List AsmRow :=
  [asmPseudo "FCFLAGS" 0xC1 none 0, asmPseudo "FABS.S" 0x41 (some .S) 1, asmPseudo "FABS.D" 0x51 (some .D) 1,
   asmPseudo "FABS.X" 0x61 (some .X) 1]

/-- Every mnemonic of the notation. -/
def asmTable : List AsmRow := asmAccessors ++ asmOperations ++ asmPseudos

/-- The pattern a name stands for in a format (10_state.md R32). -/
def namedPattern (F : Fmt) (s : Bool) : PatternName → Pattern
  | .zero => F.zeroPat s
  | .minsub => F.minSub s
  | .maxsub => F.maxSub s
  | .minnorm => F.minNorm s
  | .maxfin => F.maxFin s
  | .inf => F.infPat s

/-- The bus value of an operand; a named pattern needs a format (30_encoding.md R65). -/
def operandValue (c : Config) (fmt : Option FormatId) : AsmOperand → Option Pattern
  | .value v => some v
  | .named s p => fmt.map fun id => namedPattern (c.fmt id) s p

/-- One operand position of a line: an operand the command consumes must be written; one it ignores "may be omitted
and is then 0 on the bus" (30_encoding.md R65); one a pseudo-instruction fixes may not be written (R66). -/
def operandOrZero (c : Config) (r : AsmRow) (consumed : Bool) : Option AsmOperand → Option Pattern
  | some o => if r.pseudo && !consumed then none else operandValue c r.format o
  | none => if consumed then none else some 0

/-- The beat of a line, where the line is one of the notation (30_encoding.md R65, R66). -/
def assemble (c : Config) (l : AsmLine) : Option Beat :=
  match asmTable.find? (fun r => r.mnemonic == l.mnemonic) with
  | none => none
  | some r =>
    match operandOrZero c r (decide (1 ≤ r.operands)) l.opA, operandOrZero c r (decide (2 ≤ r.operands)) l.opB with
    | some a, some b => some { cmd := r.cmd, opA := a, opB := b }
    | _, _ => none

end Sys2Proof
end

