-- ==== Sys2Proof/Machine/HostContract.lean ====
section
/-! DEFINITION. The host's contract for moving a binary64 value between its memory and the bus (20_memory.md R42). No
rule of the block reads it; the word order is a parameter of the host (00_scope.md R14; DESIGN CHOICE, log 10). -/

namespace Sys2Proof

/-- The bus value of the two storage words `w0` (lower address) and `w1` (higher address) (20_memory.md R42). -/
def busOfStorage (o : WordOrder) (w0 w1 : Word) : DWord :=
  match o with
  | .little => joinWords w1 w0
  | .big => joinWords w0 w1

/-- The two storage words of a result, "the same way round": the lower address first (20_memory.md R42). -/
def storageOfBus (o : WordOrder) (d : DWord) : Word × Word :=
  match o with
  | .little => (loWord d, hiWord d)
  | .big => (hiWord d, loWord d)

end Sys2Proof
end

