-- ==== Sys2Proof/Safety.lean ====
section
/-! DEFINITION. What a claim may observe of a run (00_scope.md R8), and the invariant of the machine. A run is safe when
every step of it answers a next state that keeps the invariant; nothing else can go wrong (60_exceptions.md R150). -/

namespace Sys2Proof.Machine

/-- What is observed of one cycle: the response ports, and the value of FFLAGS after it (00_scope.md R8). -/
structure Observation where
  out    : Outputs
  fflags : FlagBits
deriving DecidableEq, Repr

/-- What is observed of the state a cycle leaves. -/
def State.observe (s : State) : Observation := { out := s.out, fflags := s.fflagsPort }

/-- The observations of `k` steps, in order, up to a step that is refused (00_scope.md R8). -/
def trace : Nat → State → List Observation
  | 0, _ => []
  | k + 1, s =>
    match step s with
    | .next t => t.observe :: trace k t
    | .fault _ => []
    | .refused _ => []

/-- The input ports in the next `k` cycles; a host that presents nothing further is idle (00_scope.md R8; DESIGN CHOICE,
log 1). -/
def State.cycles (k : Nat) (s : State) : List InCycle := (s.inputs ++ List.replicate k InCycle.idle).take k

/-- The cycle is no reset and presents no FWFLAGS. -/
def InCycle.keepsFlags (p : InCycle) : Prop := p.rst = false ∧ (p.cmdValid = true → p.beat.cmd ≠ 0xC1)

/-- FFLAGS, as the port shows it, after a cycle with the inputs `p` that answered the flags `raised`, when the port
showed `f` before it: reset clears it (70_reset_and_hazards.md R170), FWFLAGS overwrites it (43_system.md R141), every
other cycle accumulates (10_state.md R24, R37); 0 where HAS_FLAGS is false (R39). -/
def flagsAfterCycle (c : Config) (f : FlagBits) (p : InCycle) (raised : FlagBits) : FlagBits :=
  if p.rst = true then 0
  else if p.cmdValid = true ∧ p.beat.cmd = 0xC1 then (if c.hasFlags = true then BitVec.ofNat 4 p.beat.opA else 0)
  else f ||| raised

/-- `f` together with the flags of every observation. -/
def unionWith (f : FlagBits) (os : List Observation) : FlagBits := os.foldl (fun g o => g ||| o.out.flags) f

/-- The state a command that raises no flag leaves: its answer on the output ports, and nothing else changed
(40_word_accessors.md R76, 41_sign_primitives.md R100). -/
def State.answered (s : State) (res : Pattern) : State :=
  { s with out := { rspValid := true, res := res, flags := 0, err := false } }

/-- The beat decodes to the command `i`, and the command answers `r`, raising no flag, with nothing else changed. -/
def State.runs (s : State) (b : Beat) (i : Instr) (r : Pattern) : Prop :=
  decode s.cfg b = .ok i ∧ exec i s = .next (s.answered r)

/-- The state a command that raises `f` leaves: its answer, FFLAGS with `f` accumulated, and nothing else changed
(10_state.md R24); where HAS_FLAGS is false no flag is shown and there is no register to change (R39). -/
def State.answeredRaising (s : State) (res : Pattern) (f : FlagBits) : State :=
  { s with
    fflags := if s.cfg.hasFlags then s.fflags ||| f else s.fflags
    out := { rspValid := true, res := res, flags := if s.cfg.hasFlags then f else 0, err := false } }

/-- `v` is a pattern of the format, and no NaN. -/
def isNumber (F : Fmt) (v : Pattern) : Prop := v < 2 ^ F.width ∧ F.isNan v = false

/-- The magnitude after the one-ULP step, by the table of 42_nextafter.md R116: rows the sign of `x`, columns whether
`y` is larger than `x`. -/
def steppedMag (F : Fmt) (x y : Pattern) : Nat :=
  match F.sign x, decide (F.ord x < F.ord y) with
  | false, true => F.mag x + 1
  | false, false => F.mag x - 1
  | true, true => F.mag x - 1
  | true, false => F.mag x + 1

/-- The operands reach step 4: neither is a NaN, they differ in value, and `x` is no zero (42_nextafter.md R110). -/
def takesStep (F : Fmt) (x y : Pattern) : Prop :=
  isNumber F x ∧ isNumber F y ∧ F.ord x ≠ F.ord y ∧ F.mag x ≠ 0

/-- The NEXTAFTER command of a format, its operands given as patterns of that format (42_nextafter.md R110). -/
def nextafterOf (id : FormatId) (x y : Pattern) : Instr :=
  match id with
  | .S => .nextafterS (BitVec.ofNat 32 x) (BitVec.ofNat 32 y)
  | .D => .nextafterD (BitVec.ofNat 64 x) (BitVec.ofNat 64 y)
  | .X => .nextafterX x y

/-- The 27 defined command words (30_encoding.md R59). -/
def legalCommandWords : List (BitVec 8) :=
  [0x00, 0x01, 0x10, 0x11, 0x12, 0x13, 0x14, 0x15, 0x20, 0x21, 0x22, 0x23, 0x24, 0x25, 0x26, 0x27] ++
  [0x40, 0x41, 0x50, 0x51, 0x60, 0x61, 0x80, 0x90, 0xA0, 0xC0, 0xC1]

/-- Every beat the host will present fits the buses: `op_a` and `op_b` are `W` bits wide (10_state.md R35). -/
def InCycle.fitsBus (c : Config) (p : InCycle) : Bool := fits p.beat.opA c.busW && fits p.beat.opB c.busW

/-- The flag vectors a transaction can show: none, UF with NX, OF with NX, or NV alone (42_nextafter.md R123,
60_exceptions.md R153). -/
def possibleFlags : List FlagBits := [0, flagUF ||| flagNX, flagOF ||| flagNX, flagNV]

/-- What the output ports satisfy after every cycle. -/
structure OutputsOk (c : Config) (fflags : FlagBits) (o : Outputs) : Prop where
  /-- `res` is `W` bits wide (10_state.md R35) -/
  res_fits : o.res < 2 ^ c.busW
  /-- flags of one command are raised together (60_exceptions.md R153) -/
  flags_possible : o.flags ∈ possibleFlags
  /-- what a transaction raised stands in FFLAGS (10_state.md R24) -/
  flags_recorded : o.flags ||| shownFlags c fflags = shownFlags c fflags
  /-- an unanswered cycle drives `err` and `flags` 0 (10_state.md R37) -/
  unanswered_quiet : o.rspValid = false → o.err = false ∧ o.flags = 0
  /-- the illegal-command response is `res` 0 and `flags` 0 (60_exceptions.md R152) -/
  err_quiet : o.err = true → o.res = 0 ∧ o.flags = 0

/-- The invariant: the configuration is one R9 allows, a build without flags holds none (10_state.md R39), and the
output ports are as above. -/
structure Inv (s : State) : Prop where
  cfg_wf : s.cfg.wf = true
  no_flags : s.cfg.hasFlags = false → s.fflags = 0
  out_ok : OutputsOk s.cfg s.fflags s.out

end Sys2Proof.Machine
end

