-- ==== Sys2Proof/Certificates/Slice0/Obligations.lean ====
section
/-! DEFINITION. The statements for the provers. Each docstring names the rule of spec/ the statement formalises. -/

open Sys2Proof Sys2Proof.Machine

/-! ## Reset, idle cycles, and the step -/

/-- 70_reset_and_hazards.md R170 (and the reset values of 10_state.md R38): a cycle with `rst = 1` clears FFLAGS,
discards the command of that cycle, changes nothing else, and the next cycle takes commands. `res` of the reset cycle,
and the index behind it, are the model's free value (log 6): the statement holds for some value of each and says nothing
of which. -/
def Obligations.ResetClearsEverything : Prop :=
  (State.reset.fflags = 0 ∧ State.reset.fflagsPort = 0 ∧ State.reset.out.rspValid = false ∧
    State.reset.out.err = false ∧ State.reset.out.flags = 0) ∧
  ∀ s : State, s.cfg.wf = true → s.ports.rst = true →
    ∃ t r k, step s = .next t ∧
      t = { s with
        fflags := 0
        out := { rspValid := false, res := r, flags := 0, err := false }
        inputs := s.inputs.tail
        freeIdx := k } ∧
      ∀ (b : Beat) (rest : List InCycle) (i : Instr), t.inputs = InCycle.command b :: rest → decode s.cfg b = .ok i →
        step t = exec i { t with inputs := rest }

/-- 10_state.md R37: a cycle with `cmd_valid = 0`, whatever stands on `cmd`, `op_a` and `op_b`. `res` and the index
behind it are the model's free value (log 6). -/
def Obligations.IdleCycleHoldsFlags : Prop :=
  ∀ s : State, s.cfg.wf = true → s.ports.rst = false → s.ports.cmdValid = false →
    ∃ r k, step s = .next { s with
      out := { rspValid := false, res := r, flags := 0, err := false }
      inputs := s.inputs.tail
      freeIdx := k }

/-- 10_state.md R36: a presented command is decoded and executed, and the host's list moves on (log 1). -/
def Obligations.StepRunsDecodedCommand : Prop :=
  ∀ (s : State) (b : Beat) (rest : List InCycle) (i : Instr), s.cfg.wf = true → decode s.cfg b = .ok i →
    step { s with inputs := { rst := false, cmdValid := true, beat := b } :: rest } = exec i { s with inputs := rest }

/-- 00_scope.md R8, 60_exceptions.md R150, R160: whatever the host does, in every state, a step answers a next state;
it takes one cycle from the host's list (log 1) and never changes the configuration (log 3). -/
def Obligations.EveryCycleCompletes : Prop :=
  ∀ s : State, s.cfg.wf = true → ∃ t, step s = .next t ∧ t.cfg = s.cfg ∧ t.inputs = s.inputs.tail

/-- 93_implementation_defined.md #1: a configuration that breaks the constraint of 00_scope.md R9 is refused, and
nothing else is: the model's choice of form, log 3. -/
def Obligations.OnlyBadLayoutIsRefused : Prop :=
  ∀ (s : State) (q : Refusal), step s = .refused q ↔
    q = .extLayout ∧
      ¬(2 ≤ s.cfg.ext.expW ∧ 2 ≤ s.cfg.ext.manhW ∧ 1 ≤ s.cfg.ext.manlW ∧
        (s.cfg.ext.nbit = 0 ∨ s.cfg.ext.nbit = 2 ^ (s.cfg.ext.manhW - 1)))

/-- The invariant of Safety.lean, the model's own conjunction of 10_state.md R35, R37, R39 and 60_exceptions.md R152,
R153, is kept by every step from every state that has it. -/
def Obligations.StepKeepsInvariant : Prop :=
  ∀ s t : State, Inv s → step s = .next t → Inv t

/-- The state after reset has the invariant. -/
def Obligations.ResetHasInvariant : Prop := Inv State.reset

/-! ## Encoding -/

/-- 30_encoding.md R59, R67: which words decode, whatever the operands and the configuration. -/
def Obligations.DefinedCommandWords : Prop :=
  ∀ (c : Config) (b : Beat), (∃ i, decode c b = .ok i) ↔ b.cmd ∈ legalCommandWords

/-- 30_encoding.md R59, R60: every command by its word, with the low bits of the operand buses it reads; the bits above
them are ignored. -/
def Obligations.CommandsReadTheirOperands : Prop :=
  ∀ (c : Config) (A B : Nat) (w v : Word) (d e : DWord) (f : FlagBits),
    w.toNat = A % 2 ^ 32 → v.toNat = B % 2 ^ 32 → d.toNat = A % 2 ^ 64 → e.toNat = B % 2 ^ 64 → f.toNat = A % 2 ^ 4 →
    ∀ N E MH ML T : Nat, N = c.ext.width → E = c.ext.expW → MH = c.ext.manhW → ML = c.ext.manlW → T = MH + ML →
    decode c ⟨0x00, A, B⟩ = .ok (.getwS w) ∧ decode c ⟨0x01, A, B⟩ = .ok (.setwS w) ∧
    decode c ⟨0x10, A, B⟩ = .ok (.extractD d) ∧ decode c ⟨0x11, A, B⟩ = .ok (.insertD w v) ∧
    decode c ⟨0x12, A, B⟩ = .ok (.gethiD d) ∧ decode c ⟨0x13, A, B⟩ = .ok (.getloD d) ∧
    decode c ⟨0x14, A, B⟩ = .ok (.sethiD d v) ∧ decode c ⟨0x15, A, B⟩ = .ok (.setloD d v) ∧
    decode c ⟨0x20, A, B⟩ = .ok (.extractX (A % 2 ^ N)) ∧
    decode c ⟨0x21, A, B⟩ = .ok (.insertX (A % 2 ^ (E + 1)) (B % 2 ^ T)) ∧
    decode c ⟨0x22, A, B⟩ = .ok (.getmanhX (A % 2 ^ N)) ∧ decode c ⟨0x23, A, B⟩ = .ok (.getmanlX (A % 2 ^ N)) ∧
    decode c ⟨0x24, A, B⟩ = .ok (.setmanhX (A % 2 ^ N) (B % 2 ^ MH)) ∧
    decode c ⟨0x25, A, B⟩ = .ok (.setmanlX (A % 2 ^ N) (B % 2 ^ ML)) ∧
    decode c ⟨0x26, A, B⟩ = .ok (.getexpX (A % 2 ^ N)) ∧
    decode c ⟨0x27, A, B⟩ = .ok (.setexpX (A % 2 ^ N) (B % 2 ^ E)) ∧
    decode c ⟨0x40, A, B⟩ = .ok (.signbitS w) ∧ decode c ⟨0x41, A, B⟩ = .ok (.copysignS w v) ∧
    decode c ⟨0x50, A, B⟩ = .ok (.signbitD d) ∧ decode c ⟨0x51, A, B⟩ = .ok (.copysignD d e) ∧
    decode c ⟨0x60, A, B⟩ = .ok (.signbitX (A % 2 ^ N)) ∧
    decode c ⟨0x61, A, B⟩ = .ok (.copysignX (A % 2 ^ N) (B % 2 ^ N)) ∧
    decode c ⟨0x80, A, B⟩ = .ok (.nextafterS w v) ∧ decode c ⟨0x90, A, B⟩ = .ok (.nextafterD d e) ∧
    decode c ⟨0xA0, A, B⟩ = .ok (.nextafterX (A % 2 ^ N) (B % 2 ^ N)) ∧
    decode c ⟨0xC0, A, B⟩ = .ok .frflags ∧ decode c ⟨0xC1, A, B⟩ = .ok (.fwflags f)

/-- 30_encoding.md R62: the illegal words by field, 229 of the 256. -/
def Obligations.IllegalCommandFields : Prop :=
  (∀ cmd : BitVec 8, cmd ∉ legalCommandWords ↔
    (cmdFormat cmd = 3 ∨
      cmdGroup cmd = 0 ∧ cmdFormat cmd = 0 ∧ 2 ≤ cmdFunction cmd ∨
      cmdGroup cmd = 0 ∧ cmdFormat cmd = 1 ∧ 6 ≤ cmdFunction cmd ∨
      cmdGroup cmd = 0 ∧ cmdFormat cmd = 2 ∧ 8 ≤ cmdFunction cmd ∨
      cmdGroup cmd = 1 ∧ 2 ≤ cmdFunction cmd ∨
      cmdGroup cmd = 2 ∧ cmdFunction cmd ≠ 0 ∨
      cmdGroup cmd = 3 ∧ (cmdFormat cmd ≠ 0 ∨ 2 ≤ cmdFunction cmd))) ∧
  ((List.range 256).filter fun n => BitVec.ofNat 8 n ∉ legalCommandWords).length = 229

/-- 60_exceptions.md R152, 30_encoding.md R62: the illegal-command response, and that no defined command sets `err`. -/
def Obligations.IllegalCommandResponse : Prop :=
  ∀ (s : State) (b : Beat) (rest : List InCycle), s.cfg.wf = true →
    (b.cmd ∉ legalCommandWords →
      step { s with inputs := { rst := false, cmdValid := true, beat := b } :: rest } = .next { s with
        out := { rspValid := true, res := 0, flags := 0, err := true }
        inputs := rest }) ∧
    (b.cmd ∈ legalCommandWords →
      ∃ t, step { s with inputs := { rst := false, cmdValid := true, beat := b } :: rest } = .next t ∧
        t.out.rspValid = true ∧ t.out.err = false)

/-- 30_encoding.md R59, R60, R67: decoding an encoded well-formed command gives it back, in every configuration. -/
def Obligations.DecodeEncode : Prop :=
  ∀ (c : Config) (i : Instr), i.wf c = true → decode c (encode i) = .ok i

/-- 30_encoding.md R60: what a beat decodes to is well-formed, and its encoding is the beat with every bus bit the
command does not consume cleared. -/
def Obligations.EncodeDecode : Prop :=
  ∀ (c : Config) (b : Beat) (i : Instr), decode c b = .ok i →
    i.wf c = true ∧
      encode i = { cmd := b.cmd, opA := b.opA % 2 ^ i.widthA c.ext, opB := b.opB % 2 ^ i.widthB c.ext }

/-- 20_memory.md R46, 30_encoding.md R60: a response does not depend on the bus bits its command does not consume. -/
def Obligations.UnconsumedBitsAreIgnored : Prop :=
  ∀ (s : State) (b b' : Beat) (rest : List InCycle) (i : Instr), decode s.cfg b = .ok i → b'.cmd = b.cmd →
    b'.opA % 2 ^ i.widthA s.cfg.ext = b.opA % 2 ^ i.widthA s.cfg.ext →
    b'.opB % 2 ^ i.widthB s.cfg.ext = b.opB % 2 ^ i.widthB s.cfg.ext →
    step { s with inputs := { rst := false, cmdValid := true, beat := b' } :: rest } =
      step { s with inputs := { rst := false, cmdValid := true, beat := b } :: rest }

/-- 30_encoding.md R59, R60: a word of each group and format, written out as `GRP FMT FN`. -/
def Obligations.WrittenOutWordsDecode : Prop :=
  decode Config.default { cmd := 0b00000001, opA := 0x00000001, opB := 0 } = .ok (.setwS 0x00000001) ∧
  decode Config.default { cmd := 0b00010100, opA := 0x400800000000000a, opB := 0xc0080000 } =
    .ok (.sethiD 0x400800000000000a 0xc0080000) ∧
  decode Config.default { cmd := 0b00100001, opA := 0x3fff, opB := 0x8000000000000000 } =
    .ok (.insertX 0x3fff 0x8000000000000000) ∧
  decode Config.default { cmd := 0b01000000, opA := 0x80000000, opB := 0 } = .ok (.signbitS 0x80000000) ∧
  decode Config.default { cmd := 0b01010001, opA := 0x4008000000000000, opB := 0xbff0000000000000 } =
    .ok (.copysignD 0x4008000000000000 0xbff0000000000000) ∧
  decode Config.default { cmd := 0b10100000, opA := 0x3fff8000000000000000, opB := 0x40008000000000000000 } =
    .ok (.nextafterX 0x3fff8000000000000000 0x40008000000000000000) ∧
  decode Config.default { cmd := 0b11000000, opA := 0xffff, opB := 0xffff } = .ok .frflags ∧
  decode Config.default { cmd := 0b11000001, opA := 0xf5, opB := 0 } = .ok (.fwflags 0x5)

/-- 30_encoding.md R55: a beat as the single number `{cmd, op_a, op_b}` of `8 + 2W` bits, `cmd` most significant, then
`op_a`, then `op_b`. -/
def Obligations.BeatAsOneNumber : Prop :=
  (∀ (c : Config) (b : Beat), b.opA < 2 ^ c.busW → b.opB < 2 ^ c.busW →
    beatNumber c b = b.cmd.toNat * 2 ^ (2 * c.busW) + b.opA * 2 ^ c.busW + b.opB ∧
      beatNumber c b < 2 ^ (8 + 2 * c.busW) ∧ beatNumber c b / 2 ^ (2 * c.busW) = b.cmd.toNat ∧
      beatOfNumber c (beatNumber c b) = b) ∧
  8 + 2 * Config.default.busW = 168 ∧ 8 + 2 * Config.quad.busW = 264

/-- 30_encoding.md R65, R66: the pseudo-instructions give the beats of their expansions, an omitted operand being 0 on
the bus and a named pattern of 10_state.md R32 being read in the format of the mnemonic. The notation is log 15. -/
def Obligations.PseudoInstructionsExpand : Prop :=
  ∀ (c : Config) (a : AsmOperand),
    assemble c ⟨"FCFLAGS", none, none⟩ = assemble c ⟨"FWFLAGS", some (.value 0x0), none⟩ ∧
    assemble c ⟨"FABS.S", some a, none⟩ = assemble c ⟨"COPYSIGN.S", some a, some (.value 0x0)⟩ ∧
    assemble c ⟨"FABS.D", some a, none⟩ = assemble c ⟨"COPYSIGN.D", some a, some (.value 0x0)⟩ ∧
    assemble c ⟨"FABS.X", some a, none⟩ = assemble c ⟨"COPYSIGN.X", some a, some (.value 0x0)⟩ ∧
    assemble c ⟨"FCFLAGS", none, none⟩ = some ⟨0xC1, 0, 0⟩ ∧
    (∀ v : Pattern,
      assemble c ⟨"FABS.S", some (.value v), none⟩ = some ⟨0x41, v, 0⟩ ∧
      assemble c ⟨"FABS.D", some (.value v), none⟩ = some ⟨0x51, v, 0⟩ ∧
      assemble c ⟨"FABS.X", some (.value v), none⟩ = some ⟨0x61, v, 0⟩) ∧
    ∀ (negative : Bool) (p : PatternName),
      assemble c ⟨"FABS.S", some (.named negative p), none⟩ =
        some ⟨0x41, namedPattern (c.fmt .S) negative p, 0⟩ ∧
      assemble c ⟨"FABS.D", some (.named negative p), none⟩ =
        some ⟨0x51, namedPattern (c.fmt .D) negative p, 0⟩ ∧
      assemble c ⟨"FABS.X", some (.named negative p), none⟩ =
        some ⟨0x61, namedPattern (c.fmt .X) negative p, 0⟩

/-! ## Formats and the host's contract -/

/-- 00_scope.md R9, R10: the derived widths of the two documented configurations. -/
def Obligations.DocumentedWidths : Prop :=
  Config.default.ext.width = 80 ∧ Config.default.busW = 80 ∧ Config.quad.ext.width = 128 ∧ Config.quad.busW = 128

/-- 10_state.md R32: the named patterns of the formats for `s = 0`, as its table writes them, the negative infinity it
spells out, and for `s = 1` the top bit set. -/
def Obligations.NamedPatterns : Prop :=
  (Fmt.binary32.zeroPat false = 0x00000000 ∧ Fmt.binary32.minSub false = 0x00000001 ∧
    Fmt.binary32.maxSub false = 0x007fffff ∧ Fmt.binary32.minNorm false = 0x00800000 ∧
    Fmt.binary32.maxFin false = 0x7f7fffff ∧ Fmt.binary32.infPat false = 0x7f800000) ∧
  (Fmt.binary64.zeroPat false = 0x0000000000000000 ∧ Fmt.binary64.minSub false = 0x0000000000000001 ∧
    Fmt.binary64.maxSub false = 0x000fffffffffffff ∧ Fmt.binary64.minNorm false = 0x0010000000000000 ∧
    Fmt.binary64.maxFin false = 0x7fefffffffffffff ∧ Fmt.binary64.infPat false = 0x7ff0000000000000) ∧
  ((Config.default.fmt .X).zeroPat false = 0x00000000000000000000 ∧
    (Config.default.fmt .X).minSub false = 0x00000000000000000001 ∧
    (Config.default.fmt .X).maxSub false = 0x00007fffffffffffffff ∧
    (Config.default.fmt .X).minNorm false = 0x00018000000000000000 ∧
    (Config.default.fmt .X).maxFin false = 0x7ffeffffffffffffffff ∧
    (Config.default.fmt .X).infPat false = 0x7fff8000000000000000 ∧
    (Config.default.fmt .X).infPat true = 0xffff8000000000000000) ∧
  ((Config.quad.fmt .X).zeroPat false = 0x00000000000000000000000000000000 ∧
    (Config.quad.fmt .X).minSub false = 0x00000000000000000000000000000001 ∧
    (Config.quad.fmt .X).maxSub false = 0x0000ffffffffffffffffffffffffffff ∧
    (Config.quad.fmt .X).minNorm false = 0x00010000000000000000000000000000 ∧
    (Config.quad.fmt .X).maxFin false = 0x7ffeffffffffffffffffffffffffffff ∧
    (Config.quad.fmt .X).infPat false = 0x7fff0000000000000000000000000000) ∧
  ∀ F ∈ [Fmt.binary32, Fmt.binary64, Config.default.fmt .X, Config.quad.fmt .X],
    F.zeroPat true = 2 ^ (F.width - 1) + F.zeroPat false ∧ F.minSub true = 2 ^ (F.width - 1) + F.minSub false ∧
    F.maxSub true = 2 ^ (F.width - 1) + F.maxSub false ∧ F.minNorm true = 2 ^ (F.width - 1) + F.minNorm false ∧
    F.maxFin true = 2 ^ (F.width - 1) + F.maxFin false ∧ F.infPat true = 2 ^ (F.width - 1) + F.infPat false

/-- 10_state.md R31: for S and D, `mag` is the pattern with the sign bit cleared and `asm` is plain concatenation. -/
def Obligations.PlainMagnitudes : Prop :=
  (∀ v : Word, Fmt.binary32.mag v.toNat = (v &&& 0x7fffffff).toNat) ∧
  (∀ v : DWord, Fmt.binary64.mag v.toNat = (v &&& 0x7fffffffffffffff).toNat) ∧
  (∀ (s : Bool) (e f : Nat), Fmt.binary32.asm s e f = s.toNat * 2 ^ 31 + e * 2 ^ 23 + f) ∧
  (∀ (s : Bool) (e f : Nat), Fmt.binary64.asm s e f = s.toNat * 2 ^ 63 + e * 2 ^ 52 + f)

/-- 20_memory.md R42: whichever way round a host keeps the two words, the bus value's high word is the one R42 names,
and a result stored the same way round comes back. -/
def Obligations.HostWordOrderContract : Prop :=
  (∀ w0 w1 : Word,
    hiWord (busOfStorage .little w0 w1) = w1 ∧ loWord (busOfStorage .little w0 w1) = w0 ∧
    hiWord (busOfStorage .big w0 w1) = w0 ∧ loWord (busOfStorage .big w0 w1) = w1) ∧
  ∀ (o : WordOrder) (w0 w1 : Word) (d : DWord),
    storageOfBus o (busOfStorage o w0 w1) = (w0, w1) ∧ busOfStorage o (storageOfBus o d).1 (storageOfBus o d).2 = d

/-! ## Word accessors -/

/-- 40_word_accessors.md R80, R81: `a` is `op_a[31:0]`, and `w` is. -/
def Obligations.Binary32Accessors : Prop :=
  ∀ (s : State) (A B : Nat) (a : Word), a.toNat = A % 2 ^ 32 →
    s.runs ⟨0x00, A, B⟩ (.getwS a) a.toNat ∧ s.runs ⟨0x01, A, B⟩ (.setwS a) a.toNat

/-- 40_word_accessors.md R82 to R87: `a` is `op_a[63:0]`, `hi` is `op_a[31:0]`, `lo` and `w` are `op_b[31:0]`. -/
def Obligations.Binary64Accessors : Prop :=
  ∀ (s : State) (A B : Nat) (a : DWord) (hi w : Word),
    a.toNat = A % 2 ^ 64 → hi.toNat = A % 2 ^ 32 → w.toNat = B % 2 ^ 32 →
    s.runs ⟨0x10, A, B⟩ (.extractD a) a.toNat ∧
    s.runs ⟨0x11, A, B⟩ (.insertD hi w) (hi.toNat * 2 ^ 32 + w.toNat) ∧
    s.runs ⟨0x12, A, B⟩ (.gethiD a) (a.toNat / 2 ^ 32) ∧
    s.runs ⟨0x13, A, B⟩ (.getloD a) (a.toNat % 2 ^ 32) ∧
    s.runs ⟨0x14, A, B⟩ (.sethiD a w) (w.toNat * 2 ^ 32 + a.toNat % 2 ^ 32) ∧
    s.runs ⟨0x15, A, B⟩ (.setloD a w) (a.toNat / 2 ^ 32 * 2 ^ 32 + w.toNat)

/-- 40_word_accessors.md R88 to R95, with the slices and concatenations as the rules write them; `a` is
`op_a[EXT_W-1:0]`, and the field operands are the low bits of their bus. -/
def Obligations.ExtendedAccessors : Prop :=
  ∀ (s : State) (N E MH ML T A B a : Nat), N = s.cfg.ext.width →
    E = s.cfg.ext.expW → MH = s.cfg.ext.manhW → ML = s.cfg.ext.manlW → T = MH + ML → a = A % 2 ^ N →
    s.runs ⟨0x20, A, B⟩ (.extractX a) a ∧
    s.runs ⟨0x21, A, B⟩ (.insertX (A % 2 ^ (E + 1)) (B % 2 ^ T)) (cat (A % 2 ^ (E + 1)) T (B % 2 ^ T)) ∧
    s.runs ⟨0x22, A, B⟩ (.getmanhX a) (field a ML MH) ∧
    s.runs ⟨0x23, A, B⟩ (.getmanlX a) (field a 0 ML) ∧
    s.runs ⟨0x24, A, B⟩ (.setmanhX a (B % 2 ^ MH)) (cat (cat (field a T (1 + E)) MH (B % 2 ^ MH)) ML (field a 0 ML)) ∧
    s.runs ⟨0x25, A, B⟩ (.setmanlX a (B % 2 ^ ML)) (cat (field a ML (1 + E + MH)) ML (B % 2 ^ ML)) ∧
    s.runs ⟨0x26, A, B⟩ (.getexpX a) (field a T E) ∧
    s.runs ⟨0x27, A, B⟩ (.setexpX a (B % 2 ^ E)) (cat (cat (field a (T + E) 1) E (B % 2 ^ E)) T (field a 0 T))

/-- 40_word_accessors.md R83, R84, R85: the halves of a binary64 value put together give it back. -/
def Obligations.InsertOfHalves : Prop :=
  ∀ (a : DWord) (s : State), ∃ h l : Word,
    exec (.gethiD a) s = .next (s.answered h.toNat) ∧ exec (.getloD a) s = .next (s.answered l.toNat) ∧
      exec (.insertD h l) s = .next (s.answered a.toNat)

/-! ## Sign primitives -/

/-- 41_sign_primitives.md R101, R102, R103: the top bit of the operand's own pattern, whatever else the pattern is. -/
def Obligations.SignbitReadsTopBit : Prop :=
  ∀ (s : State) (A B N v : Nat) (x : Word) (d : DWord),
    x.toNat = A % 2 ^ 32 → d.toNat = A % 2 ^ 64 → N = s.cfg.ext.width → v = A % 2 ^ N →
    s.runs ⟨0x40, A, B⟩ (.signbitS x) (x.toNat / 2 ^ 31) ∧
    s.runs ⟨0x50, A, B⟩ (.signbitD d) (d.toNat / 2 ^ 63) ∧
    s.runs ⟨0x60, A, B⟩ (.signbitX v) (v / 2 ^ (N - 1))

/-- 41_sign_primitives.md R104, R105, R106: the top bit of `y` over the rest of `x`, both their own bus's low bits. -/
def Obligations.CopysignReplacesTopBit : Prop :=
  ∀ (s : State) (A B N a b : Nat) (x y : Word) (u v : DWord),
    x.toNat = A % 2 ^ 32 → y.toNat = B % 2 ^ 32 → u.toNat = A % 2 ^ 64 → v.toNat = B % 2 ^ 64 →
    N = s.cfg.ext.width → a = A % 2 ^ N → b = B % 2 ^ N →
    s.runs ⟨0x41, A, B⟩ (.copysignS x y) (y.toNat / 2 ^ 31 * 2 ^ 31 + x.toNat % 2 ^ 31) ∧
    s.runs ⟨0x51, A, B⟩ (.copysignD u v) (v.toNat / 2 ^ 63 * 2 ^ 63 + u.toNat % 2 ^ 63) ∧
    s.runs ⟨0x61, A, B⟩ (.copysignX a b) (b / 2 ^ (N - 1) * 2 ^ (N - 1) + a % 2 ^ (N - 1))

/-- 41_sign_primitives.md R108 for binary32. -/
def Obligations.CopysignLawsBinary32 : Prop :=
  ∀ (s : State) (x y z : Word), ∃ r : Word,
    exec (.copysignS x y) s = .next (s.answered r.toNat) ∧
    exec (.signbitS r) s = exec (.signbitS y) s ∧
    exec (.copysignS r z) s = exec (.copysignS x z) s ∧
    exec (.copysignS x x) s = .next (s.answered x.toNat) ∧
    field r.toNat 0 31 = field x.toNat 0 31 ∧
    Fmt.binary32.classOf r.toNat = Fmt.binary32.classOf x.toNat

/-- 41_sign_primitives.md R108 for binary64. -/
def Obligations.CopysignLawsBinary64 : Prop :=
  ∀ (s : State) (x y z : DWord), ∃ r : DWord,
    exec (.copysignD x y) s = .next (s.answered r.toNat) ∧
    exec (.signbitD r) s = exec (.signbitD y) s ∧
    exec (.copysignD r z) s = exec (.copysignD x z) s ∧
    exec (.copysignD x x) s = .next (s.answered x.toNat) ∧
    field r.toNat 0 63 = field x.toNat 0 63 ∧
    Fmt.binary64.classOf r.toNat = Fmt.binary64.classOf x.toNat

/-- 41_sign_primitives.md R108 for the extended format, in every configuration, non-canonical patterns included. -/
def Obligations.CopysignLawsExtended : Prop :=
  ∀ (s : State) (N : Nat) (x y z : Pattern), N = s.cfg.ext.width → x < 2 ^ N → y < 2 ^ N → z < 2 ^ N →
    ∃ r, r < 2 ^ N ∧
      exec (.copysignX x y) s = .next (s.answered r) ∧
      exec (.signbitX r) s = exec (.signbitX y) s ∧
      exec (.copysignX r z) s = exec (.copysignX x z) s ∧
      exec (.copysignX x x) s = .next (s.answered x) ∧
      field r 0 (N - 1) = field x 0 (N - 1) ∧
      (s.cfg.fmt .X).classOf r = (s.cfg.fmt .X).classOf x

/-! ## The adjacent-value engine -/

/-- 42_nextafter.md R110, R111, R120: the one-word form answers NextAfter(S, x, y), for every pair of patterns. -/
def Obligations.NextafterBinary32Refines : Prop :=
  ∀ (x y : Word) (s : State), s.cfg.wf = true →
    exec (.nextafterS x y) s = .next (s.answeredRaising
      (nextAfter s.cfg .S x.toNat y.toNat).1 (nextAfter s.cfg .S x.toNat y.toNat).2)

/-- 42_nextafter.md R110, R111, R121: the two-word form answers NextAfter(D, x, y), for every pair of patterns. -/
def Obligations.NextafterBinary64Refines : Prop :=
  ∀ (x y : DWord) (s : State), s.cfg.wf = true →
    exec (.nextafterD x y) s = .next (s.answeredRaising
      (nextAfter s.cfg .D x.toNat y.toNat).1 (nextAfter s.cfg .D x.toNat y.toNat).2)

/-- 42_nextafter.md R110, R111, R122: the field-level form answers NextAfter(X, x, y), for every layout R9 allows and
every pair of patterns, non-canonical ones included. -/
def Obligations.NextafterExtendedRefines : Prop :=
  ∀ (x y : Pattern) (s : State), s.cfg.wf = true →
    exec (.nextafterX x y) s = .next (s.answeredRaising
      (nextAfter s.cfg .X x y).1 (nextAfter s.cfg .X x y).2)

/-- 42_nextafter.md R112, R113: a NaN operand comes first; the result is a NaN of the format and the flags are NV or
none. Nothing is said of the NaN's sign, payload or quiet bit, which are free values where NAN_ADD is open (log 4). -/
def Obligations.NextafterOfNanIsNan : Prop :=
  ∀ (s : State) (id : FormatId) (x y : Pattern), s.cfg.wf = true →
    x < 2 ^ (s.cfg.fmt id).width → y < 2 ^ (s.cfg.fmt id).width →
    (s.cfg.fmt id).classOf x = .nan ∨ (s.cfg.fmt id).classOf y = .nan →
    ∃ r nv, exec (nextafterOf id x y) s = .next (s.answeredRaising r (if nv = true then 0x8 else 0x0)) ∧
      nanAdd s.cfg id x y = (r, nv) ∧ (s.cfg.fmt id).classOf r = .nan ∧ r < 2 ^ (s.cfg.fmt id).width

/-- 42_nextafter.md R113, NAN_ADD_DEFAULT: the first NaN operand with its quiet bit and NBIT set, NV exactly when a NaN
operand has its quiet bit clear. The rule is from general knowledge by the spec's own mark (log 5). -/
def Obligations.NanAddDefaultQuiets : Prop :=
  ∀ (s : State) (id : FormatId) (x y n q : Pattern), s.cfg.wf = true → s.cfg.nanAdd = .ieeeDefault →
    x < 2 ^ (s.cfg.fmt id).width → y < 2 ^ (s.cfg.fmt id).width →
    (s.cfg.fmt id).classOf x = .nan ∧ n = x ∨
      (s.cfg.fmt id).classOf x ≠ .nan ∧ (s.cfg.fmt id).classOf y = .nan ∧ n = y →
    q = (s.cfg.fmt id).fracW - 1 →
    ∃ r nv, exec (nextafterOf id x y) s = .next (s.answeredRaising r (if nv = true then 0x8 else 0x0)) ∧
      (∀ k, r.testBit k = (n.testBit k || decide (k = q) || (s.cfg.fmt id).nb.testBit k)) ∧
      (nv = true ↔
        (s.cfg.fmt id).classOf x = .nan ∧ x.testBit q = false ∨
        (s.cfg.fmt id).classOf y = .nan ∧ y.testBit q = false)

/-- 42_nextafter.md R114: equality by value returns the pattern `y` and raises nothing; canonical numbers are equal by
value exactly when they are the same pattern or both zeros. -/
def Obligations.NextafterOfEqualIsY : Prop :=
  ∀ (s : State) (id : FormatId) (x y : Pattern), s.cfg.wf = true →
    isNumber (s.cfg.fmt id) x → isNumber (s.cfg.fmt id) y →
    ((s.cfg.fmt id).ord x = (s.cfg.fmt id).ord y →
      exec (nextafterOf id x y) s = .next (s.answeredRaising y 0x0)) ∧
    ((s.cfg.fmt id).canonical x = true → (s.cfg.fmt id).canonical y = true →
      ((s.cfg.fmt id).ord x = (s.cfg.fmt id).ord y ↔
        x = y ∨ (s.cfg.fmt id).classOf x = .zero ∧ (s.cfg.fmt id).classOf y = .zero))

/-- 42_nextafter.md R115: a zero source gives the smallest subnormal of `y`'s sign, with UF and NX; it differs from
`x`. That the flags are these is from general knowledge by the spec's own mark (log 12). -/
def Obligations.NextafterOfZeroIsMinSub : Prop :=
  ∀ (s : State) (id : FormatId) (x y : Pattern), s.cfg.wf = true →
    isNumber (s.cfg.fmt id) x → isNumber (s.cfg.fmt id) y →
    (s.cfg.fmt id).mag x = 0 → (s.cfg.fmt id).mag y ≠ 0 →
    exec (nextafterOf id x y) s =
      .next (s.answeredRaising ((s.cfg.fmt id).minSub ((s.cfg.fmt id).sign y)) 0x3) ∧
    (s.cfg.fmt id).minSub ((s.cfg.fmt id).sign y) ≠ x

/-- 42_nextafter.md R116: the general step changes the magnitude by one, in the direction of the rule's table, and keeps
the sign of `x`: it never crosses zero and never passes the infinity. That the result is canonical is R125's clause, for
the default layout the choice of D7 that the model takes (DESIGN CHOICE, log 11). -/
def Obligations.NextafterStepsMagnitudeByOne : Prop :=
  ∀ (s : State) (id : FormatId) (x y : Pattern), s.cfg.wf = true → takesStep (s.cfg.fmt id) x y →
    ∃ r f, exec (nextafterOf id x y) s = .next (s.answeredRaising r f) ∧
      (s.cfg.fmt id).sign r = (s.cfg.fmt id).sign x ∧
      (s.cfg.fmt id).mag r = steppedMag (s.cfg.fmt id) x y ∧
      steppedMag (s.cfg.fmt id) x y ≤ (s.cfg.fmt id).mag ((s.cfg.fmt id).infPat false) ∧
      (s.cfg.fmt id).canonical r = true

/-- 42_nextafter.md R117: when the stepped exponent field is the maximum, `x` was the largest finite value of its sign
and the answer is the infinity of that sign, with OF and NX. That the flags are these is from general knowledge by the
spec's own mark (log 12). -/
def Obligations.NextafterOverflows : Prop :=
  ∀ (s : State) (id : FormatId) (x y : Pattern), s.cfg.wf = true → takesStep (s.cfg.fmt id) x y →
    steppedMag (s.cfg.fmt id) x y / 2 ^ (s.cfg.fmt id).fracW = (s.cfg.fmt id).expMax →
    (s.cfg.fmt id).mag x = (s.cfg.fmt id).mag ((s.cfg.fmt id).maxFin false) ∧
    exec (nextafterOf id x y) s =
      .next (s.answeredRaising ((s.cfg.fmt id).infPat ((s.cfg.fmt id).sign x)) 0x5)

/-- 42_nextafter.md R118: when the stepped exponent field is 0 the answer is the stepped pattern, with UF and NX when it
is subnormal and by UF_ON_ZERO_RESULT when it is a zero, which only the smallest subnormal steps to; a subnormal that
steps up to the smallest normal raises nothing. -/
def Obligations.NextafterUnderflows : Prop :=
  ∀ (s : State) (id : FormatId) (x y : Pattern), s.cfg.wf = true → takesStep (s.cfg.fmt id) x y →
    (steppedMag (s.cfg.fmt id) x y / 2 ^ (s.cfg.fmt id).fracW = 0 →
      exec (nextafterOf id x y) s = .next (s.answeredRaising
        ((s.cfg.fmt id).asm ((s.cfg.fmt id).sign x) 0
          (steppedMag (s.cfg.fmt id) x y % 2 ^ (s.cfg.fmt id).fracW))
        (if steppedMag (s.cfg.fmt id) x y = 0 ∧ s.cfg.ufOnZeroResult = false then 0x0 else 0x3)) ∧
      (steppedMag (s.cfg.fmt id) x y = 0 → (s.cfg.fmt id).mag x = (s.cfg.fmt id).mag ((s.cfg.fmt id).minSub false))) ∧
    ((s.cfg.fmt id).classOf x = .subnormal → steppedMag (s.cfg.fmt id) x y / 2 ^ (s.cfg.fmt id).fracW = 1 →
      exec (nextafterOf id x y) s =
        .next (s.answeredRaising ((s.cfg.fmt id).minNorm ((s.cfg.fmt id).sign x)) 0x0))

/-- 42_nextafter.md R119: otherwise the answer is the stepped pattern, a normal number, and no flag is raised; from an
infinity it is the largest finite value of that sign. -/
def Obligations.NextafterReachesNormal : Prop :=
  ∀ (s : State) (id : FormatId) (x y : Pattern), s.cfg.wf = true → takesStep (s.cfg.fmt id) x y →
    steppedMag (s.cfg.fmt id) x y / 2 ^ (s.cfg.fmt id).fracW ≠ (s.cfg.fmt id).expMax →
    steppedMag (s.cfg.fmt id) x y / 2 ^ (s.cfg.fmt id).fracW ≠ 0 →
    ∃ r, exec (nextafterOf id x y) s = .next (s.answeredRaising r 0x0) ∧
      r = (s.cfg.fmt id).asm ((s.cfg.fmt id).sign x)
        (steppedMag (s.cfg.fmt id) x y / 2 ^ (s.cfg.fmt id).fracW)
        (steppedMag (s.cfg.fmt id) x y % 2 ^ (s.cfg.fmt id).fracW) ∧
      steppedMag (s.cfg.fmt id) x y / 2 ^ (s.cfg.fmt id).fracW ≤ (s.cfg.fmt id).expMax - 1 ∧
      (s.cfg.fmt id).classOf r = .normal ∧
      ((s.cfg.fmt id).classOf x = .infinity → r = (s.cfg.fmt id).maxFin ((s.cfg.fmt id).sign x))

/-- 42_nextafter.md R123: the flags, by the step that ends the command; steps 5 to 7 told apart by the class of the
result. The grounds of steps 3 and 5 are from general knowledge by the spec's own mark (log 12). -/
def Obligations.NextafterFlagsByEndingStep : Prop :=
  ∀ (s : State) (id : FormatId) (x y : Pattern) (F : Fmt), s.cfg.wf = true → F = s.cfg.fmt id →
    x < 2 ^ F.width → y < 2 ^ F.width →
    ∃ r f, exec (nextafterOf id x y) s = .next (s.answeredRaising r f) ∧
      (F.classOf x = .nan ∨ F.classOf y = .nan → f = if (nanAdd s.cfg id x y).2 = true then 0x8 else 0x0) ∧
      (isNumber F x → isNumber F y → F.ord x = F.ord y → r = y ∧ f = 0x0) ∧
      (isNumber F x → isNumber F y → F.ord x ≠ F.ord y → F.mag x = 0 → F.classOf r = .subnormal ∧ f = 0x3) ∧
      (takesStep F x y →
        F.classOf r = .infinity ∧ f = 0x5 ∨
        F.classOf r = .subnormal ∧ f = 0x3 ∨
        F.classOf r = .zero ∧ f = (if s.cfg.ufOnZeroResult = true then 0x3 else 0x0) ∨
        F.classOf r = .normal ∧ f = 0x0)

/-- 42_nextafter.md R124 (c) and (g): from one number to a different one the result's `ord` is one above or one below
`x`'s, and never beyond `y`. -/
def Obligations.NextafterIsAdjacentTowardY : Prop :=
  ∀ (s : State) (id : FormatId) (x y : Pattern), s.cfg.wf = true →
    isNumber (s.cfg.fmt id) x → isNumber (s.cfg.fmt id) y → (s.cfg.fmt id).ord x ≠ (s.cfg.fmt id).ord y →
    ∃ r f, exec (nextafterOf id x y) s = .next (s.answeredRaising r f) ∧ isNumber (s.cfg.fmt id) r ∧
      ((s.cfg.fmt id).ord x < (s.cfg.fmt id).ord y →
        (s.cfg.fmt id).ord r = (s.cfg.fmt id).ord x + 1 ∧ (s.cfg.fmt id).ord r ≤ (s.cfg.fmt id).ord y) ∧
      ((s.cfg.fmt id).ord y < (s.cfg.fmt id).ord x →
        (s.cfg.fmt id).ord r = (s.cfg.fmt id).ord x - 1 ∧ (s.cfg.fmt id).ord y ≤ (s.cfg.fmt id).ord r)

/-- 42_nextafter.md R124 (f): a subnormal or normal number comes back from a step toward one infinity and a step toward
the other, as the same pattern. -/
def Obligations.NextafterRoundTrip : Prop :=
  ∀ (s s' : State) (id : FormatId) (x : Pattern) (up : Bool) (F : Fmt), s.cfg.wf = true → s'.cfg = s.cfg →
    F = s.cfg.fmt id → x < 2 ^ F.width → F.canonical x = true →
    F.classOf x = .subnormal ∨ F.classOf x = .normal →
    ∃ t f f', exec (nextafterOf id x (F.infPat (!up))) s = .next (s.answeredRaising t f) ∧
      exec (nextafterOf id t (F.infPat up)) s' = .next (s'.answeredRaising x f')

/-- 42_nextafter.md R125: the engine ignores an operand's NBIT: two operands with the same sign, exponent field and
fraction give the same answer, unless the command ends in step 1 or step 2, and the answer is canonical. To run such
operands, and not to refuse them,
is the choice of log 11. -/
def Obligations.NextafterIgnoresLeadingBit : Prop :=
  ∀ (s : State) (x x' y y' : Pattern) (F : Fmt), s.cfg.wf = true → F = s.cfg.fmt .X →
    isNumber F x → isNumber F y → x' < 2 ^ F.width → y' < 2 ^ F.width → F.ord x ≠ F.ord y →
    F.sign x' = F.sign x → F.expf x' = F.expf x → F.frac x' = F.frac x →
    F.sign y' = F.sign y → F.expf y' = F.expf y → F.frac y' = F.frac y →
    exec (.nextafterX x' y') s = exec (.nextafterX x y) s ∧
      ∃ r f, exec (.nextafterX x y) s = .next (s.answeredRaising r f) ∧ F.canonical r = true

/-- 42_nextafter.md R127: every NEXTAFTER answers a pattern of the operand format; answeredRaising leaves `err` 0. -/
def Obligations.NextafterAnswersPatternOfFormat : Prop :=
  ∀ (s : State) (id : FormatId) (x y : Pattern), s.cfg.wf = true →
    x < 2 ^ (s.cfg.fmt id).width → y < 2 ^ (s.cfg.fmt id).width →
    ∃ r f, exec (nextafterOf id x y) s = .next (s.answeredRaising r f) ∧ r < 2 ^ (s.cfg.fmt id).width

/-! ## The flag register -/

/-- 43_system.md R140: FFLAGS in `res[3:0]`, the value that stands on the port `fflags`; FFLAGS unchanged; 0 where
HAS_FLAGS is false. -/
def Obligations.FrflagsReads : Prop :=
  ∀ (s : State) (A B : Nat),
    s.runs ⟨0xC0, A, B⟩ .frflags (if s.cfg.hasFlags = true then s.fflags.toNat else 0) ∧
    s.fflagsPort.toNat = if s.cfg.hasFlags = true then s.fflags.toNat else 0

/-- 43_system.md R141: all four bits overwritten with `op_a[3:0]`, `res` 0; accepted without effect where HAS_FLAGS is
false. -/
def Obligations.FwflagsOverwrites : Prop :=
  ∀ (s : State) (A B : Nat) (v : FlagBits), v.toNat = A % 2 ^ 4 →
    decode s.cfg ⟨0xC1, A, B⟩ = .ok (.fwflags v) ∧
    exec (.fwflags v) s = .next { s with
      fflags := if s.cfg.hasFlags = true then v else s.fflags
      out := { rspValid := true, res := 0, flags := 0, err := false } }

/-- 10_state.md R24: what every command does to FFLAGS, and that a set flag stays set until FWFLAGS or reset. -/
def Obligations.FlagsAccumulate : Prop :=
  (∀ (i : Instr) (s : State), s.cfg.hasFlags = true →
    ∃ t, exec i s = .next t ∧
      (i.cmd ≠ 0xC1 → t.fflags = s.fflags ||| t.out.flags) ∧
      (i.cmd ≠ 0x80 → i.cmd ≠ 0x90 → i.cmd ≠ 0xA0 → t.out.flags = 0)) ∧
  ∀ s t : State, step s = .next t → s.ports.rst = false → (s.ports.cmdValid = true → s.ports.beat.cmd ≠ 0xC1) →
    s.fflags ||| t.fflags = t.fflags

/-- 10_state.md R39: without the flag register FFLAGS and `flags` read 0, FRFLAGS answers 0, FWFLAGS has no effect, and
every other answer is the one a block with the register gives. -/
def Obligations.NoFlagRegisterVariant : Prop :=
  ∀ (i : Instr) (s : State), s.cfg.hasFlags = false →
    ∃ t u, exec i s = .next t ∧
      exec i { s with cfg := { s.cfg with hasFlags := true } } = .next u ∧
      s.fflagsPort = 0 ∧ t.fflagsPort = 0 ∧ t.out.flags = 0 ∧ t.fflags = s.fflags ∧
      t.out.rspValid = true ∧ u.out.rspValid = true ∧ t.out.err = false ∧ u.out.err = false ∧
      (i = .frflags → t.out.res = 0) ∧ (i ≠ .frflags → t.out.res = u.out.res)

/-- 10_state.md R36, 70_reset_and_hazards.md R175: only FRFLAGS's response depends on FFLAGS, and no response depends on
what stood on the ports before. -/
def Obligations.OnlyFrflagsReadsFlags : Prop :=
  ∀ (i : Instr) (s s' : State), i ≠ .frflags → s'.cfg = s.cfg →
    ∃ t t', exec i s = .next t ∧ exec i s' = .next t' ∧ t'.out = t.out

/-- 20_memory.md R46: every command is idempotent. -/
def Obligations.CommandsAreIdempotent : Prop :=
  ∀ (i : Instr) (s : State), ∃ t, exec i s = .next t ∧ exec i t = .next t

/-- 20_memory.md R48, 43_system.md R140: over any run of `k` cycles, whatever the host does, FFLAGS at the end is what
its cycles make of it one by one. Over a run whose every cycle after the first is no reset and presents no FWFLAGS it is
the union of the `flags` of every cycle since: with 0 when the first cycle is a reset, with the value written when it is
an FWFLAGS, and with the value FFLAGS began with when it is neither. An FRFLAGS that follows returns it. -/
def Obligations.FlagsAreUnionOverRun : Prop :=
  ∀ (k : Nat) (s : State), s.cfg.wf = true →
    ∃ t, Sys2Proof.core.run k s = .next t ∧ (trace k s).length = k ∧
      t.fflagsPort = ((s.cycles k).zip (trace k s)).foldl
        (fun f z => flagsAfterCycle s.cfg f z.1 z.2.out.flags) s.fflagsPort ∧
      (0 < k → (∀ p ∈ (s.cycles k).tail, p.keepsFlags) →
        (s.ports.rst = true → t.fflagsPort = unionWith 0 (trace k s).tail) ∧
        (s.ports.rst = false → s.ports.cmdValid = true → s.ports.beat.cmd = 0xC1 →
          t.fflagsPort =
            unionWith (if s.cfg.hasFlags = true then BitVec.ofNat 4 s.ports.beat.opA else 0) (trace k s).tail)) ∧
      ((∀ p ∈ s.cycles k, p.keepsFlags) → t.fflagsPort = unionWith s.fflagsPort (trace k s)) ∧
      ∃ u, exec .frflags t = .next u ∧ u.out.res = t.fflagsPort.toNat

/-- 10_state.md R24, R37, 43_system.md R141, 70_reset_and_hazards.md R170: what each cycle makes of FFLAGS: a reset
clears it, an FWFLAGS overwrites it with `op_a[3:0]`, and every other cycle, a command, an illegal word or an idle one,
leaves it or-ed with the flags of that cycle. Nothing else changes it. -/
def Obligations.FlagsAfterEveryCycle : Prop :=
  ∀ s t : State, step s = .next t →
    t.fflagsPort = flagsAfterCycle s.cfg s.fflagsPort s.ports t.out.flags
end

