-- ==== Sys2Proof/Laws/Flags.lean ====
section
/-! SUPPORT. How flag vectors are shown, accumulated and overwritten, with and without the flag register. -/

namespace Sys2Proof

@[simp] theorem shownFlags_zero (c : Config) : shownFlags c 0#4 = 0#4 := by simp [shownFlags]

@[simp] theorem accumulateFlags_zero (c : Config) (old : FlagBits) : accumulateFlags c old 0#4 = old := by
  simp [accumulateFlags]

/-- What FFLAGS shows after accumulation is what it showed before, together with what is shown of the raised flags. -/
theorem shown_accumulate (c : Config) (old f : FlagBits) :
    shownFlags c (accumulateFlags c old f) = shownFlags c old ||| shownFlags c f := by
  unfold shownFlags accumulateFlags
  split <;> simp

/-- Raising a flag twice is raising it once (20_memory.md R46). -/
theorem accumulate_idem (c : Config) (old f : FlagBits) :
    accumulateFlags c (accumulateFlags c old f) f = accumulateFlags c old f := by
  unfold accumulateFlags
  split
  · rw [BitVec.or_assoc, BitVec.or_self]
  · rfl

theorem shown_overwrite (c : Config) (old v : FlagBits) :
    shownFlags c (overwriteFlags c old v) = shownFlags c v := by
  unfold shownFlags overwriteFlags
  split <;> simp

end Sys2Proof
end

