-- ==== Sys2Proof/Laws/State.lean ====
section
/-! SUPPORT. One lemma per field per update of State, so that no later proof unfolds a record update. -/

namespace Sys2Proof.Machine

namespace State
variable (s : State) (r : Pattern) (f v : FlagBits)

@[simp] theorem respond_fflags : (s.respond r f).fflags = accumulateFlags s.cfg s.fflags f := rfl
@[simp] theorem respond_out :
    (s.respond r f).out = { rspValid := true, res := r, flags := shownFlags s.cfg f, err := false } := rfl
@[simp] theorem respond_inputs : (s.respond r f).inputs = s.inputs := rfl
@[simp] theorem respond_cfg : (s.respond r f).cfg = s.cfg := rfl
@[simp] theorem respond_freeIdx : (s.respond r f).freeIdx = s.freeIdx := rfl

@[simp] theorem respondWriteFlags_fflags :
    (s.respondWriteFlags v).fflags = overwriteFlags s.cfg s.fflags v := rfl
@[simp] theorem respondWriteFlags_out :
    (s.respondWriteFlags v).out = { rspValid := true, res := 0, flags := 0, err := false } := rfl
@[simp] theorem respondWriteFlags_inputs : (s.respondWriteFlags v).inputs = s.inputs := rfl
@[simp] theorem respondWriteFlags_cfg : (s.respondWriteFlags v).cfg = s.cfg := rfl
@[simp] theorem respondWriteFlags_freeIdx : (s.respondWriteFlags v).freeIdx = s.freeIdx := rfl

@[simp] theorem respondIllegal_fflags : s.respondIllegal.fflags = s.fflags := rfl
@[simp] theorem respondIllegal_out :
    s.respondIllegal.out = { rspValid := true, res := 0, flags := 0, err := true } := rfl
@[simp] theorem respondIllegal_inputs : s.respondIllegal.inputs = s.inputs := rfl
@[simp] theorem respondIllegal_cfg : s.respondIllegal.cfg = s.cfg := rfl
@[simp] theorem respondIllegal_freeIdx : s.respondIllegal.freeIdx = s.freeIdx := rfl

@[simp] theorem idleCycle_fflags : s.idleCycle.fflags = s.fflags := rfl
@[simp] theorem idleCycle_out : s.idleCycle.out = s.unanswered := rfl
@[simp] theorem idleCycle_inputs : s.idleCycle.inputs = s.inputs := rfl
@[simp] theorem idleCycle_cfg : s.idleCycle.cfg = s.cfg := rfl
@[simp] theorem idleCycle_freeIdx : s.idleCycle.freeIdx = s.freeIdx + 1 := rfl

@[simp] theorem resetCycle_fflags : s.resetCycle.fflags = 0 := rfl
@[simp] theorem resetCycle_out : s.resetCycle.out = s.unanswered := rfl
@[simp] theorem resetCycle_inputs : s.resetCycle.inputs = s.inputs := rfl
@[simp] theorem resetCycle_cfg : s.resetCycle.cfg = s.cfg := rfl
@[simp] theorem resetCycle_freeIdx : s.resetCycle.freeIdx = s.freeIdx + 1 := rfl

@[simp] theorem advance_fflags : s.advance.fflags = s.fflags := rfl
@[simp] theorem advance_out : s.advance.out = s.out := rfl
@[simp] theorem advance_inputs : s.advance.inputs = s.inputs.tail := rfl
@[simp] theorem advance_cfg : s.advance.cfg = s.cfg := rfl
@[simp] theorem advance_freeIdx : s.advance.freeIdx = s.freeIdx := rfl

@[simp] theorem withFetchWord_fflags (nbits w : Nat) : (s.withFetchWord nbits w).fflags = s.fflags := rfl
@[simp] theorem withFetchWord_cfg (nbits w : Nat) : (s.withFetchWord nbits w).cfg = s.cfg := rfl
@[simp] theorem withFetchWord_ports (nbits w : Nat) :
    (s.withFetchWord nbits w).ports = InCycle.command (beatOfTableWord s.cfg nbits w) := rfl

end State

end Sys2Proof.Machine
end

