-- ==== Sys2Proof/Laws/Answers.lean ====
section
/-! SUPPORT. The one operation that answers a command, and the cycles of a run, in the words of Safety.lean. -/

namespace Sys2Proof.Machine

/-- Answering with raised flags is all of answeredRaising, with and without the flag register. -/
theorem respond_eq_answeredRaising (s : State) (r : Pattern) (f : FlagBits) :
    s.respond r f = s.answeredRaising r f := by
  simp [State.respond, State.answeredRaising, accumulateFlags, shownFlags]

/-- Answering with no flag raised changes the output ports and nothing else. -/
theorem respond_eq_answered (s : State) (r : Pattern) : s.respond r 0#4 = s.answered r := by
  simp [State.respond, State.answered]

@[simp] theorem cycles_zero (s : State) : s.cycles 0 = [] := rfl

/-- The cycles of a run are the coming one and those of the host's list behind it. -/
theorem cycles_succ (k : Nat) (s : State) : s.cycles (k + 1) = s.ports :: s.advance.cycles k := by
  cases h : s.inputs with
  | nil => simp [State.cycles, State.ports, State.advance, h, List.replicate_succ]
  | cons p l => simp [State.cycles, State.ports, State.advance, h, List.take_append, List.take_replicate]; omega

/-- The cycles of a run depend on what the host drives and on nothing else. -/
theorem cycles_congr {s t : State} (h : t.inputs = s.inputs) (k : Nat) : t.cycles k = s.cycles k := by
  simp [State.cycles, h]

theorem flagsAfterCycle_keeps {p : InCycle} (h : p.keepsFlags) (c : Config) (f r : FlagBits) :
    flagsAfterCycle c f p r = f ||| r := by
  rw [flagsAfterCycle, if_neg (by simp [h.1]), if_neg (fun hc => h.2 hc.1 hc.2)]

@[simp] theorem unionWith_nil (f : FlagBits) : unionWith f [] = f := rfl

@[simp] theorem unionWith_cons (f : FlagBits) (o : Observation) (os : List Observation) :
    unionWith f (o :: os) = unionWith (f ||| o.out.flags) os := rfl

end Sys2Proof.Machine
end

