-- ==== Sys2Proof/Laws/Bits.lean ====
section
/-! SUPPORT. What the bit-field helpers do, in arithmetic: one lemma per helper and per way two of them meet. -/

namespace Sys2Proof

theorem field_lt (v lo len : Nat) : field v lo len < 2 ^ len := Nat.mod_lt _ (Nat.two_pow_pos _)

theorem field_zero_of_lt {v len : Nat} (h : v < 2 ^ len) : field v 0 len = v := by
  simp [field, Nat.mod_eq_of_lt h]

theorem testBit_field (v lo len i : Nat) : (field v lo len).testBit i = (decide (i < len) && v.testBit (lo + i)) := by
  simp [field, Nat.testBit_mod_two_pow, Nat.testBit_div_two_pow, Nat.add_comm]

theorem cat_lt {a n b len : Nat} (ha : a < 2 ^ n) (hb : b < 2 ^ len) : cat a len b < 2 ^ (n + len) := by
  have h : (a + 1) * 2 ^ len ≤ 2 ^ n * 2 ^ len := Nat.mul_le_mul_right _ ha
  rw [Nat.pow_add]
  simp only [cat]
  rw [Nat.add_mul] at h
  omega

/-- The low part of a concatenation. -/
theorem cat_mod {a b len : Nat} (hb : b < 2 ^ len) : cat a len b % 2 ^ len = b := by
  simp [cat, Nat.mul_comm a, Nat.mod_eq_of_lt hb]

/-- The high part of a concatenation. -/
theorem cat_div {a b len : Nat} (hb : b < 2 ^ len) : cat a len b / 2 ^ len = a := by
  simp [cat, Nat.mul_comm a, Nat.mul_add_div (Nat.two_pow_pos len), Nat.div_eq_of_lt hb]

theorem field_cat_low {a b len : Nat} (hb : b < 2 ^ len) : field (cat a len b) 0 len = b := by
  simp [field, cat_mod hb]

/-- A field above the low part of a concatenation is a field of the high part. -/
theorem field_cat_high {a b len : Nat} (hb : b < 2 ^ len) (lo n : Nat) :
    field (cat a len b) (len + lo) n = field a lo n := by
  simp [field, Nat.pow_add, ← Nat.div_div_eq_div_mul, cat_div hb]

theorem testBit_cat {a b len : Nat} (hb : b < 2 ^ len) (i : Nat) :
    (cat a len b).testBit i = if i < len then b.testBit i else a.testBit (i - len) := by
  rw [cat, Nat.mul_comm]
  exact Nat.testBit_two_pow_mul_add a hb i

/-- Two neighbouring fields make one: `{v[hi part], v[lo part]}`. -/
theorem cat_field_field (v lo n m : Nat) : cat (field v (lo + n) m) n (field v lo n) = field v lo (n + m) := by
  simp only [cat, field, Nat.pow_add, ← Nat.div_div_eq_div_mul]
  rw [Nat.mod_mul]
  ring

theorem mask_lt (n : Nat) : mask n < 2 ^ n := Nat.sub_lt (Nat.two_pow_pos n) Nat.one_pos

theorem hiWord_toNat (d : DWord) : (hiWord d).toNat = d.toNat / 2 ^ 32 := by
  have := d.isLt
  simp [hiWord, Nat.shiftRight_eq_div_pow]
  omega

theorem loWord_toNat (d : DWord) : (loWord d).toNat = d.toNat % 2 ^ 32 := by simp [loWord]

theorem joinWords_toNat (hi lo : Word) : (joinWords hi lo).toNat = hi.toNat * 2 ^ 32 + lo.toNat := by
  have h := lo.isLt
  simp only [joinWords, BitVec.toNat_append, Nat.shiftLeft_eq]
  rw [Nat.mul_comm, Nat.two_pow_add_eq_or_of_lt h]

theorem joinWords_hi_lo (d : DWord) : joinWords (hiWord d) (loWord d) = d := by
  apply BitVec.eq_of_toNat_eq
  rw [joinWords_toNat, hiWord_toNat, loWord_toNat]
  omega

theorem hiWord_joinWords (hi lo : Word) : hiWord (joinWords hi lo) = hi := by
  apply BitVec.eq_of_toNat_eq
  have := lo.isLt
  rw [hiWord_toNat, joinWords_toNat]
  omega

theorem loWord_joinWords (hi lo : Word) : loWord (joinWords hi lo) = lo := by
  apply BitVec.eq_of_toNat_eq
  have := lo.isLt
  rw [loWord_toNat, joinWords_toNat]
  omega

theorem wordOperand_toNat (w : Word) : wordOperand w.toNat = w := by simp [wordOperand]

theorem dwordOperand_toNat (d : DWord) : dwordOperand d.toNat = d := by simp [dwordOperand]

theorem flagOperand_toNat (v : FlagBits) : flagOperand v.toNat = v := by simp [flagOperand]

theorem width_le_busW (c : Config) : c.ext.width ≤ c.busW := Nat.le_max_right _ _

theorem dword_le_busW (c : Config) : 64 ≤ c.busW := Nat.le_max_left _ _

end Sys2Proof
end

