-- ==== Sys2Proof/Laws/Decode.lean ====
section
/-! SUPPORT. What the decoder answers is well-formed, and a well-formed operand is what operand assembly reads back. -/

namespace Sys2Proof

theorem fits_iff {v len : Nat} : fits v len = true ↔ v < 2 ^ len := by simp [fits]

@[simp] theorem fits_field (v lo len : Nat) : fits (field v lo len) len = true := fits_iff.2 (field_lt v lo len)

@[simp] theorem fits_extOperand (x : ExtLayout) (v : Pattern) : fits (extOperand x v) x.width = true := fits_field ..
@[simp] theorem fits_signExpOperand (x : ExtLayout) (v : Pattern) :
    fits (signExpOperand x v) (x.expW + 1) = true := fits_field ..
@[simp] theorem fits_trailOperand (x : ExtLayout) (v : Pattern) : fits (trailOperand x v) x.trailW = true :=
  fits_field ..
@[simp] theorem fits_manhOperand (x : ExtLayout) (v : Pattern) : fits (manhOperand x v) x.manhW = true := fits_field ..
@[simp] theorem fits_manlOperand (x : ExtLayout) (v : Pattern) : fits (manlOperand x v) x.manlW = true := fits_field ..
@[simp] theorem fits_expOperand (x : ExtLayout) (v : Pattern) : fits (expOperand x v) x.expW = true := fits_field ..

theorem decodeAcc_wf {c : Config} {fmt fn : Nat} {a b : Pattern} {i : Instr}
    (h : decodeAcc c.ext fmt fn a b = .ok i) : i.wf c = true := by
  unfold decodeAcc at h
  split at h <;> cases h <;> simp [Instr.wf]

theorem decodeSgn_wf {c : Config} {fmt fn : Nat} {a b : Pattern} {i : Instr}
    (h : decodeSgn c.ext fmt fn a b = .ok i) : i.wf c = true := by
  unfold decodeSgn at h
  split at h <;> cases h <;> simp [Instr.wf]

theorem decodeAdj_wf {c : Config} {fmt fn : Nat} {a b : Pattern} {i : Instr}
    (h : decodeAdj c.ext fmt fn a b = .ok i) : i.wf c = true := by
  unfold decodeAdj at h
  split at h <;> cases h <;> simp [Instr.wf]

theorem decodeSys_wf {c : Config} {fmt fn : Nat} {a : Pattern} {i : Instr}
    (h : decodeSys fmt fn a = .ok i) : i.wf c = true := by
  unfold decodeSys at h
  split at h <;> cases h <;> simp [Instr.wf]

/-- FWFLAGS is decoded from its word alone, with the low four bits of `op_a` (30_encoding.md R59, R60). -/
theorem decode_of_cmd_fwflags {c : Config} {b : Beat} (h : b.cmd = 0xC1) :
    decode c b = .ok (.fwflags (BitVec.ofNat 4 b.opA)) := by
  have g : cmdGroup b.cmd = 3 ∧ cmdFormat b.cmd = 0 ∧ cmdFunction b.cmd = 1 := by rw [h]; decide
  simp only [decode, g.1, g.2.1, g.2.2, decodeSys, flagOperand]

/-- Whatever a beat decodes to is well-formed. -/
theorem decode_wf {c : Config} {b : Beat} {i : Instr} (h : decode c b = .ok i) : i.wf c = true := by
  unfold decode at h
  split at h
  · exact decodeAcc_wf h
  · exact decodeSgn_wf h
  · exact decodeAdj_wf h
  · exact decodeSys_wf h

end Sys2Proof
end

