-- ==== Sys2Proof/Laws/Exec.lean ====
section
/-! SUPPORT. Everything exec and step can do, said once. -/

namespace Sys2Proof.Machine

/-- Every command but FWFLAGS answers with some result and some raised flags; FWFLAGS overwrites the register. -/
theorem exec_cases (i : Instr) (s : State) :
    (∃ r f, exec i s = .next (s.respond r f)) ∨
    (∃ v, i = .fwflags v ∧ exec i s = .next (s.respondWriteFlags v)) := by
  cases i with
  | fwflags v => exact .inr ⟨v, rfl, rfl⟩
  | _ => exact .inl ⟨_, _, rfl⟩

/-- exec always answers a next state, and it takes nothing from the host's list and leaves the configuration alone. -/
theorem exec_next (i : Instr) (s : State) :
    ∃ t, exec i s = .next t ∧ t.inputs = s.inputs ∧ t.cfg = s.cfg ∧ t.freeIdx = s.freeIdx ∧ t.out.rspValid = true ∧
      t.out.err = false := by
  rcases exec_cases i s with ⟨r, f, h⟩ | ⟨v, -, h⟩
  · exact ⟨_, h, rfl, rfl, rfl, rfl, rfl⟩
  · exact ⟨_, h, rfl, rfl, rfl, rfl, rfl⟩

/-- What a step of an allowed configuration can do: reset, a decoded command, the illegal-command response, or an idle
cycle. -/
theorem step_cases {s : State} (hc : s.cfg.wf = true) :
    (s.ports.rst = true ∧ step s = .next s.advance.resetCycle) ∨
    (s.ports.rst = false ∧ s.ports.cmdValid = true ∧
      ∃ i, decode s.cfg s.ports.beat = .ok i ∧ step s = exec i s.advance) ∨
    (s.ports.rst = false ∧ s.ports.cmdValid = true ∧
      ∃ e, decode s.cfg s.ports.beat = .error e ∧ step s = .next s.advance.respondIllegal) ∨
    (s.ports.rst = false ∧ s.ports.cmdValid = false ∧ step s = .next s.advance.idleCycle) := by
  unfold step
  rw [if_pos hc]
  cases hr : s.ports.rst with
  | true => exact .inl ⟨rfl, by simp⟩
  | false =>
    cases hv : s.ports.cmdValid with
    | false => exact .inr (.inr (.inr ⟨rfl, rfl, by simp⟩))
    | true =>
      cases hd : decode s.cfg s.ports.beat with
      | ok i => exact .inr (.inl ⟨rfl, rfl, i, rfl, by simp⟩)
      | error e => exact .inr (.inr (.inl ⟨rfl, rfl, e, rfl, by simp⟩))

end Sys2Proof.Machine
end

