-- ==== Sys2Proof/Laws/Format.lean ====
section
/-! SUPPORT. The helper functions of 10_state.md R31 in plain arithmetic: the fraction is the low FW bits, a pattern put
together by asm has the fields it was given, and a canonical pattern is the asm of its own fields. -/

namespace Sys2Proof

/-- What every format of a configuration satisfies: the leading-bit mask is absent or the top bit of the trailing field,
and the exponent field and the fraction are not degenerate. -/
structure Fmt.Ok (F : Fmt) : Prop where
  exp_two : 2 ≤ F.expW
  trail_three : 3 ≤ F.trailW
  nb_top : F.nb = 0 ∨ F.nb = 2 ^ (F.trailW - 1)

theorem ExtLayout.wf_iff (x : ExtLayout) :
    x.wf = true ↔ 2 ≤ x.expW ∧ 2 ≤ x.manhW ∧ 1 ≤ x.manlW ∧ (x.nbit = 0 ∨ x.nbit = 2 ^ (x.manhW - 1)) := by
  simp [ExtLayout.wf, and_assoc]

theorem fmt_ok (c : Config) (hc : c.wf = true) (id : FormatId) : (c.fmt id).Ok := by
  cases id with
  | S => exact ⟨by simp [Config.fmt, Fmt.binary32], by simp [Config.fmt, Fmt.binary32], .inl rfl⟩
  | D => exact ⟨by simp [Config.fmt, Fmt.binary64], by simp [Config.fmt, Fmt.binary64], .inl rfl⟩
  | X =>
    obtain ⟨he, hh, hl, hn⟩ := (ExtLayout.wf_iff _).1 hc
    refine ⟨he, by simp only [Config.fmt, Fmt.extended, ExtLayout.trailW]; omega, ?_⟩
    simp only [Config.fmt, Fmt.extended, ExtLayout.trailW]
    rcases hn with h | h
    · exact .inl (by simp [h])
    · refine .inr ?_
      rw [h, ← Nat.pow_add]
      congr 1
      omega

namespace Fmt
variable {F : Fmt}

theorem fracW_le (F : Fmt) : F.fracW ≤ F.trailW := by
  unfold fracW
  split <;> omega

theorem Ok.two_le_fracW (h : F.Ok) : 2 ≤ F.fracW := by
  have := h.trail_three
  unfold fracW
  split <;> omega

/-- With an explicit leading bit the trailing field is one bit wider than the fraction. -/
theorem Ok.nb_cases (h : F.Ok) : (F.nb = 0 ∧ F.trailW = F.fracW) ∨ (F.nb = 2 ^ F.fracW ∧ F.trailW = F.fracW + 1) := by
  have ht := h.trail_three
  rcases h.nb_top with hn | hn
  · exact .inl ⟨hn, by simp [fracW, hn]⟩
  · have hp : F.nb ≠ 0 := by rw [hn]; exact (Nat.two_pow_pos _).ne'
    refine .inr ⟨by simp [fracW, hn], ?_⟩
    simp only [fracW, hp, ne_eq, not_false_eq_true, if_true]
    omega

theorem Ok.nb_lt (h : F.Ok) : F.nb < 2 ^ F.trailW := by
  rcases h.nb_cases with ⟨hn, -⟩ | ⟨hn, ht⟩
  · rw [hn]; exact Nat.two_pow_pos _
  · rw [hn, ht]; exact Nat.pow_lt_pow_right (by norm_num) (Nat.lt_succ_self _)

theorem Ok.testBit_nb (h : F.Ok) (i : Nat) : F.nb.testBit i = (decide (F.nb ≠ 0) && decide (i = F.fracW)) := by
  rcases h.nb_cases with ⟨hn, -⟩ | ⟨hn, -⟩
  · simp [hn]
  · rw [hn]
    simp [Nat.testBit_two_pow, eq_comm]

/-- Masking the leading bit leaves the low FW bits of the pattern. -/
theorem Ok.frac_eq (h : F.Ok) (v : Pattern) : F.frac v = field v 0 F.fracW := by
  apply Nat.eq_of_testBit_eq
  intro i
  have hle := F.fracW_le
  simp only [frac, trail, Nat.testBit_and, testBit_field, Nat.testBit_xor, mask, Nat.testBit_two_pow_sub_one,
    h.testBit_nb]
  rcases h.nb_cases with ⟨hn, ht⟩ | ⟨hn, ht⟩
  · by_cases h1 : i < F.fracW <;> simp [hn, ht, h1]
  · have hp : F.nb ≠ 0 := by rw [hn]; exact (Nat.two_pow_pos _).ne'
    by_cases h1 : i < F.fracW
    · have h2 : i < F.trailW := by omega
      have h3 : i ≠ F.fracW := by omega
      simp [h1, h2, h3]
    · by_cases h2 : i = F.fracW
      · simp [h2, ht, hp]
      · have h3 : ¬ i < F.trailW := by omega
        simp [h1, h3]

theorem Ok.frac_lt (h : F.Ok) (v : Pattern) : F.frac v < 2 ^ F.fracW := by
  rw [h.frac_eq]
  exact field_lt _ _ _

theorem expf_lt (F : Fmt) (v : Pattern) : F.expf v < 2 ^ F.expW := field_lt _ _ _

theorem mag_div (h : F.Ok) (v : Pattern) : F.mag v / 2 ^ F.fracW = F.expf v := cat_div (h.frac_lt v)

theorem mag_mod (h : F.Ok) (v : Pattern) : F.mag v % 2 ^ F.fracW = F.frac v := cat_mod (h.frac_lt v)

/-- The trailing field asm makes: the fraction, under the leading bit where the exponent field is not 0. -/
theorem Ok.asmTrail_eq (h : F.Ok) {f : Nat} (hf : f < 2 ^ F.fracW) (p : Prop) [Decidable p] :
    (f ||| (if p then F.nb else 0)) = f + (if p then F.nb else 0) := by
  split
  · rcases h.nb_cases with ⟨hn, -⟩ | ⟨hn, -⟩
    · simp [hn]
    · have := Nat.two_pow_add_eq_or_of_lt hf 1
      rw [hn, Nat.or_comm, Nat.add_comm]
      simpa using this.symm
  · simp

theorem Ok.asmTrail_lt (h : F.Ok) {f : Nat} (hf : f < 2 ^ F.fracW) (p : Prop) [Decidable p] :
    (f ||| (if p then F.nb else 0)) < 2 ^ F.trailW := by
  apply Nat.or_lt_two_pow
  · exact lt_of_lt_of_le hf (Nat.pow_le_pow_right (by norm_num) F.fracW_le)
  · split
    · exact h.nb_lt
    · exact Nat.two_pow_pos _

section Fields
variable {t e : Nat} {s : Bool}

/-- The fields of `{s, e, t}`. -/
theorem sign_cat (he : e < 2 ^ F.expW) (ht : t < 2 ^ F.trailW) :
    F.sign (cat (cat s.toNat F.expW e) F.trailW t) = s := by
  have h1 : ¬ F.width - 1 < F.trailW := by simp [width]; omega
  have h2 : ¬ F.width - 1 - F.trailW < F.expW := by simp [width]; omega
  have h3 : F.width - 1 - F.trailW - F.expW = 0 := by simp [width]; omega
  rw [sign, testBit_cat ht, if_neg h1, testBit_cat he, if_neg h2, h3]
  cases s <;> rfl

theorem expf_cat (he : e < 2 ^ F.expW) (ht : t < 2 ^ F.trailW) :
    F.expf (cat (cat s.toNat F.expW e) F.trailW t) = e :=
  (field_cat_high (a := cat s.toNat F.expW e) ht 0 F.expW).trans (field_cat_low he)

theorem trail_cat (ht : t < 2 ^ F.trailW) : F.trail (cat (cat s.toNat F.expW e) F.trailW t) = t :=
  field_cat_low ht

theorem cat_lt_width (he : e < 2 ^ F.expW) (ht : t < 2 ^ F.trailW) :
    cat (cat s.toNat F.expW e) F.trailW t < 2 ^ F.width := by
  have hs : s.toNat < 2 ^ 1 := by cases s <;> decide
  exact cat_lt (cat_lt hs he) ht

end Fields

section Asm
variable {f e : Nat} {s : Bool}

theorem Ok.sign_asm (h : F.Ok) (he : e < 2 ^ F.expW) (hf : f < 2 ^ F.fracW) : F.sign (F.asm s e f) = s :=
  sign_cat he (h.asmTrail_lt hf _)

theorem Ok.expf_asm (h : F.Ok) (he : e < 2 ^ F.expW) (hf : f < 2 ^ F.fracW) : F.expf (F.asm s e f) = e :=
  expf_cat he (h.asmTrail_lt hf _)

theorem Ok.frac_asm (h : F.Ok) (hf : f < 2 ^ F.fracW) : F.frac (F.asm s e f) = f := by
  have ht : F.trail (F.asm s e f) = _ := trail_cat (h.asmTrail_lt hf (e ≠ 0))
  have h0 : F.frac (F.asm s e f) = F.trail (F.asm s e f) % 2 ^ F.fracW := by
    rw [h.frac_eq, trail, field, field, Nat.pow_zero, Nat.div_one, Nat.mod_mod_of_dvd]
    exact Nat.pow_dvd_pow 2 F.fracW_le
  rw [h0, ht, h.asmTrail_eq hf]
  rcases h.nb_cases with ⟨hn, -⟩ | ⟨hn, -⟩
  · simp [hn, Nat.mod_eq_of_lt hf]
  · split <;> simp [hn, Nat.mod_eq_of_lt hf]

theorem Ok.mag_asm (h : F.Ok) (he : e < 2 ^ F.expW) (hf : f < 2 ^ F.fracW) :
    F.mag (F.asm s e f) = e * 2 ^ F.fracW + f := by
  rw [mag, h.expf_asm he hf, h.frac_asm hf]

theorem Ok.asm_lt (h : F.Ok) (he : e < 2 ^ F.expW) (hf : f < 2 ^ F.fracW) : F.asm s e f < 2 ^ F.width :=
  cat_lt_width he (h.asmTrail_lt hf _)

theorem Ok.canonical_asm (h : F.Ok) (he : e < 2 ^ F.expW) (hf : f < 2 ^ F.fracW) :
    F.canonical (F.asm s e f) = true := by
  have ht : F.trail (F.asm s e f) = _ := trail_cat (h.asmTrail_lt hf (e ≠ 0))
  simp only [canonical, h.expf_asm he hf, ht, decide_eq_true_eq]
  apply Nat.eq_of_testBit_eq
  intro i
  by_cases hi : i = F.fracW
  · have hfi : f.testBit i = false := Nat.testBit_lt_two_pow (hi ▸ hf)
    by_cases he0 : e = 0 <;> simp [he0, h.testBit_nb, hfi]
  · by_cases he0 : e = 0 <;> simp [he0, h.testBit_nb, hi]

end Asm

/-- A canonical pattern is put together from its own fields. -/
theorem asm_fields {v : Pattern} (hv : v < 2 ^ F.width) (hc : F.canonical v = true) :
    F.asm (F.sign v) (F.expf v) (F.frac v) = v := by
  have htr : F.frac v ||| (if F.expf v ≠ 0 then F.nb else 0) = F.trail v := by
    have hc' := of_decide_eq_true hc
    rw [← hc', frac, ← Nat.and_or_distrib_left]
    apply Nat.eq_of_testBit_eq
    intro i
    simp only [Nat.testBit_and, Nat.testBit_or, Nat.testBit_xor, trail, testBit_field, mask,
      Nat.testBit_two_pow_sub_one]
    by_cases hi : i < F.trailW <;> cases F.nb.testBit i <;> simp [hi]
  have hs : (F.sign v).toNat = field v (F.trailW + F.expW) 1 := by
    have hw : F.width - 1 = F.trailW + F.expW := by simp [width]; omega
    rw [sign, hw, Nat.testBit_eq_decide_div_mod_eq, field]
    rcases Nat.mod_two_eq_zero_or_one (v / 2 ^ (F.trailW + F.expW)) with hz | hz <;> simp [hz]
  rw [asm, htr, hs, expf, trail, cat_field_field]
  have := cat_field_field v 0 F.trailW (F.expW + 1)
  rw [Nat.zero_add] at this
  rw [this]
  apply field_zero_of_lt
  rw [width] at hv
  convert hv using 2
  omega

/-- A nonzero magnitude is negative exactly under a set sign. -/
theorem sign_iff_ord_neg (F : Fmt) {v : Pattern} (hm : F.mag v ≠ 0) : F.sign v = true ↔ F.ord v < 0 := by
  unfold ord
  cases hs : F.sign v
  · simp
  · simp; omega

theorem Ok.mag_lt (h : F.Ok) (v : Pattern) : F.mag v < 2 ^ (F.expW + F.fracW) :=
  cat_lt (F.expf_lt v) (h.frac_lt v)

end Fmt

/-- NAN_ADD answers a pattern of the format: properties P1 and P3 are about its class and its width. The width half. -/
theorem freeNan_lt {F : Fmt} (h : F.Ok) (ch : NanChoice) : freeNan F ch < 2 ^ F.width := by
  refine Fmt.cat_lt_width (mask_lt _) (h.asmTrail_lt ?_ (ch.lead = true))
  have h2 : 2 ^ 1 < 2 ^ F.fracW := Nat.pow_lt_pow_right (by norm_num) h.two_le_fracW
  have := Nat.mod_lt ch.fraction (show 0 < 2 ^ F.fracW - 1 by omega)
  omega

end Sys2Proof
end

