-- ==== Sys2Proof/Laws/NanAdd.lean ====
section
/-! SUPPORT. Everything that may be assumed of NAN_ADD (42_nextafter.md R113, P1): a NaN of the format comes back, and no
bit above the format's width is set, under either setting of the configuration. -/

namespace Sys2Proof

theorem Fmt.isNan_iff (F : Fmt) (v : Pattern) : F.isNan v = true ↔ F.expf v = F.expMax ∧ F.frac v ≠ 0 := by
  simp only [isNan, classOf]
  split <;> split <;> simp_all
  split <;> simp

/-- Bits set below the exponent field leave it alone. -/
theorem Fmt.expf_or {F : Fmt} (v : Pattern) {w : Pattern} (hw : w < 2 ^ F.trailW) : F.expf (v ||| w) = F.expf v := by
  apply Nat.eq_of_testBit_eq
  intro i
  have h : w.testBit (F.trailW + i) = false :=
    Nat.testBit_lt_two_pow (lt_of_lt_of_le hw (Nat.pow_le_pow_right (by norm_num) (by omega)))
  simp [expf, testBit_field, Nat.testBit_or, h]

theorem quietBit_lt {F : Fmt} (h : F.Ok) : quietBit F < 2 ^ F.trailW := by
  have h2 := h.two_le_fracW
  have h3 := F.fracW_le
  exact Nat.pow_lt_pow_right (by norm_num) (by omega)

theorem nanAddDefault_isNan {F : Fmt} (h : F.Ok) {x y : Pattern} (hn : F.isNan x = true ∨ F.isNan y = true) :
    F.isNan (nanAddDefault F x y).1 = true := by
  simp only [nanAddDefault]
  have h1 : F.isNan (if F.isNan x = true then x else y) = true := by
    split_ifs with hx
    · exact hx
    · exact hn.resolve_left hx
  rw [Fmt.isNan_iff] at h1 ⊢
  rw [Fmt.expf_or _ h.nb_lt, Fmt.expf_or _ (quietBit_lt h)]
  refine ⟨h1.1, fun h0 => ?_⟩
  have h2 := congrArg (fun z => z.testBit (F.fracW - 1)) h0
  have h3 : F.fracW - 1 < F.fracW := by have := h.two_le_fracW; omega
  simp [h.frac_eq, testBit_field, Nat.testBit_or, quietBit, h3] at h2

theorem nanAddDefault_lt {F : Fmt} (h : F.Ok) {x y : Pattern} (hx : x < 2 ^ F.width) (hy : y < 2 ^ F.width) :
    (nanAddDefault F x y).1 < 2 ^ F.width := by
  have hw : 2 ^ F.trailW ≤ 2 ^ F.width := Nat.pow_le_pow_right (by norm_num) (by simp only [Fmt.width]; omega)
  refine Nat.or_lt_two_pow (Nat.or_lt_two_pow ?_ ?_) (lt_of_lt_of_le h.nb_lt hw)
  · split_ifs <;> assumption
  · exact lt_of_lt_of_le (quietBit_lt h) hw

theorem freeNan_isNan {F : Fmt} (h : F.Ok) (ch : NanChoice) : F.isNan (freeNan F ch) = true := by
  have h2 : 2 ^ 1 < 2 ^ F.fracW := Nat.pow_lt_pow_right (by norm_num) h.two_le_fracW
  have hf : 1 + ch.fraction % (2 ^ F.fracW - 1) < 2 ^ F.fracW := by
    have := Nat.mod_lt ch.fraction (show 0 < 2 ^ F.fracW - 1 by omega)
    omega
  have ht := h.asmTrail_lt hf (ch.lead = true)
  have htr : F.trail (freeNan F ch) = _ := Fmt.trail_cat ht
  rw [Fmt.isNan_iff]
  refine ⟨Fmt.expf_cat (mask_lt _) ht, ?_⟩
  have h0 : F.frac (freeNan F ch) = F.trail (freeNan F ch) % 2 ^ F.fracW := by
    rw [h.frac_eq, Fmt.trail, field, field, Nat.pow_zero, Nat.div_one, Nat.mod_mod_of_dvd]
    exact Nat.pow_dvd_pow 2 F.fracW_le
  have h1 : F.frac (freeNan F ch) = 1 + ch.fraction % (2 ^ F.fracW - 1) := by
    rw [h0, htr, h.asmTrail_eq hf]
    rcases h.nb_cases with ⟨hn, -⟩ | ⟨hn, -⟩
    · simp [hn, Nat.mod_eq_of_lt hf]
    · split <;> simp [hn, Nat.mod_eq_of_lt hf]
  omega

theorem nanAdd_isNan {c : Config} (hc : c.wf = true) (id : FormatId) {x y : Pattern}
    (hn : (c.fmt id).isNan x = true ∨ (c.fmt id).isNan y = true) : (c.fmt id).isNan (nanAdd c id x y).1 = true := by
  rw [nanAdd]
  split
  · exact freeNan_isNan (fmt_ok c hc id) _
  · exact nanAddDefault_isNan (fmt_ok c hc id) hn

theorem nanAdd_lt {c : Config} (hc : c.wf = true) (id : FormatId) {x y : Pattern} (hx : x < 2 ^ (c.fmt id).width)
    (hy : y < 2 ^ (c.fmt id).width) : (nanAdd c id x y).1 < 2 ^ (c.fmt id).width := by
  rw [nanAdd]
  split
  · exact freeNan_lt (fmt_ok c hc id) _
  · exact nanAddDefault_lt (fmt_ok c hc id) hx hy

end Sys2Proof
end

