-- ==== Sys2Proof/Laws/NextAfter.lean ====
section
/-! SUPPORT. What the pieces of the adjacent-value engine do: the general algorithm step by step as it ends, and the two
field-level steps of NEXTAFTER.X as plus and minus one on the magnitude. -/

namespace Sys2Proof

theorem ord_eq_signedMag (F : Fmt) (v : Pattern) : F.ord v = signedMag (F.sign v) (F.mag v) := rfl

/-- No number's magnitude passes the infinity's. -/
theorem mag_le_of_not_nan {F : Fmt} (h : F.Ok) {v : Pattern} (hv : F.isNan v = false) :
    F.mag v ≤ F.expMax * 2 ^ F.fracW := by
  rw [Bool.eq_false_iff, ne_eq, Fmt.isNan_iff] at hv
  have h1 := h.frac_lt v
  have h2 := F.expf_lt v
  have h3 : F.expf v ≤ F.expMax := by simp only [Fmt.expMax, mask]; omega
  rw [Fmt.mag]
  rcases Nat.lt_or_ge (F.expf v) F.expMax with h4 | h4
  · have : (F.expf v + 1) * 2 ^ F.fracW ≤ F.expMax * 2 ^ F.fracW := Nat.mul_le_mul_right _ h4
    rw [Nat.add_mul] at this
    omega
  · have he : F.expf v = F.expMax := le_antisymm h3 h4
    have h0 : F.frac v = 0 := by
      by_contra hf
      exact hv ⟨he, hf⟩
    rw [he, h0, Nat.add_zero]

/-- A step away from zero starts below every bound that both magnitudes keep. -/
theorem lt_of_stepsOutward {sx sy : Bool} {mx my k : Nat} (hx : mx ≤ k) (hy : my ≤ k)
    (hne : signedMag sx mx ≠ signedMag sy my)
    (hs : stepsOutward (signedMag sx mx) (signedMag sy my) sx = true) : mx < k := by
  cases sx <;> cases sy <;> simp [signedMag, stepsOutward] at hs hne <;> omega

section Ends
variable {c : Config} {id : FormatId} {x y : Pattern}

/-- Ends in step 1. -/
theorem nextAfter_of_nan (h : (c.fmt id).isNan x = true ∨ (c.fmt id).isNan y = true) :
    nextAfter c id x y = ((nanAdd c id x y).1, nanFlags (nanAdd c id x y).2) := by
  simp only [nextAfter]
  rw [if_pos (by rwa [Bool.or_eq_true])]

/-- Ends in step 2. -/
theorem nextAfter_of_eq (hx : (c.fmt id).isNan x = false) (hy : (c.fmt id).isNan y = false)
    (h : (c.fmt id).ord x = (c.fmt id).ord y) : nextAfter c id x y = (y, 0) := by
  simp [nextAfter, hx, hy, h]

/-- Ends in step 3. -/
theorem nextAfter_of_zero (hx : (c.fmt id).isNan x = false) (hy : (c.fmt id).isNan y = false)
    (h : (c.fmt id).ord x ≠ (c.fmt id).ord y) (h0 : (c.fmt id).mag x = 0) :
    nextAfter c id x y = ((c.fmt id).minSub ((c.fmt id).sign y), zeroSourceFlags) := by
  simp [nextAfter, hx, hy, h, h0]

end Ends

/-- The number three fields stand for (42_nextafter.md R122, `mx`). -/
def ExtLayout.fieldsMag (x : ExtLayout) (v : ExtFields) : Nat :=
  (v.e * 2 ^ x.fracHighW + v.fh) * 2 ^ x.manlW + v.ml

/-- The increment with its carries is plus one. -/
theorem ExtLayout.stepUp_spec (x : ExtLayout) (v : ExtFields) (h1 : v.fh < 2 ^ x.fracHighW) (h2 : v.ml < 2 ^ x.manlW) :
    x.fieldsMag (x.stepUp v) = x.fieldsMag v + 1 ∧ (x.stepUp v).fh < 2 ^ x.fracHighW ∧
      (x.stepUp v).ml < 2 ^ x.manlW := by
  have p1 := Nat.two_pow_pos x.fracHighW
  have p2 := Nat.two_pow_pos x.manlW
  simp only [stepUp]
  by_cases hm : v.ml + 1 = 2 ^ x.manlW
  · rw [hm, Nat.mod_self, if_pos rfl]
    by_cases hf : v.fh + 1 = 2 ^ x.fracHighW
    · rw [hf, Nat.mod_self, if_pos rfl]
      refine ⟨?_, p1, p2⟩
      simp only [fieldsMag]
      rw [← hf, ← hm]
      ring
    · rw [Nat.mod_eq_of_lt (show v.fh + 1 < _ by omega), if_neg (by omega)]
      refine ⟨?_, by simp only; omega, p2⟩
      simp only [fieldsMag]
      rw [← hm]
      ring
  · rw [Nat.mod_eq_of_lt (show v.ml + 1 < _ by omega), if_neg (by omega)]
    exact ⟨rfl, h1, by simp only; omega⟩

/-- The decrement with its borrows is minus one. -/
theorem ExtLayout.stepDown_spec (x : ExtLayout) (v : ExtFields) (h1 : v.fh < 2 ^ x.fracHighW)
    (h2 : v.ml < 2 ^ x.manlW) (h0 : x.fieldsMag v ≠ 0) :
    x.fieldsMag (x.stepDown v) + 1 = x.fieldsMag v ∧ (x.stepDown v).fh < 2 ^ x.fracHighW ∧
      (x.stepDown v).ml < 2 ^ x.manlW := by
  have p1 := Nat.two_pow_pos x.fracHighW
  have p2 := Nat.two_pow_pos x.manlW
  simp only [stepDown]
  have key : ∀ a k : Nat, a < k → a ≠ 0 → (a + (k - 1)) % k = a - 1 := by
    intro a k ha h
    rw [show a + (k - 1) = (a - 1) + k by omega, Nat.add_mod_right, Nat.mod_eq_of_lt (by omega)]
  have key0 : ∀ k : Nat, 0 < k → (0 + (k - 1)) % k = k - 1 := by
    intro k hk
    rw [Nat.zero_add, Nat.mod_eq_of_lt (by omega)]
  obtain ⟨b, hb⟩ : ∃ b, 2 ^ x.manlW = b + 1 := ⟨2 ^ x.manlW - 1, by omega⟩
  by_cases hm : v.ml = 0
  · rw [if_pos hm, hm, key0 _ p2]
    by_cases hf : v.fh = 0
    · rw [if_pos hf, hf, key0 _ p1]
      refine ⟨?_, by simp only; omega, by simp only; omega⟩
      have hne : v.e ≠ 0 := by
        intro h
        exact h0 (by simp [fieldsMag, h, hf, hm])
      obtain ⟨e, he⟩ := Nat.exists_eq_succ_of_ne_zero hne
      obtain ⟨a, ha⟩ : ∃ a, 2 ^ x.fracHighW = a + 1 := ⟨2 ^ x.fracHighW - 1, by omega⟩
      simp only [fieldsMag, hf, hm, he, ha, hb, Nat.add_sub_cancel, Nat.succ_eq_add_one]
      ring
    · rw [if_neg hf, key _ _ h1 hf]
      refine ⟨?_, by simp only; omega, by simp only; omega⟩
      obtain ⟨e, he⟩ := Nat.exists_eq_succ_of_ne_zero hf
      simp only [fieldsMag, hm, he, hb, Nat.add_sub_cancel, Nat.succ_eq_add_one]
      ring
  · rw [if_neg hm, key _ _ h2 hm]
    exact ⟨by simp only [fieldsMag]; omega, h1, by simp only; omega⟩

end Sys2Proof
end

