-- ==== Sys2Proof/Laws/PerInstr.lean ====
section
/-! SUPPORT. The family EncodeFits: the beat of a well-formed command fits the buses, `op_a` and `op_b` being `W` bits
wide (10_state.md R35, 30_encoding.md R60); one lemma per constructor. -/

namespace Sys2Proof

/-- A value of fewer bits than the bus fits the bus. -/
theorem fits_bus {v len : Nat} {c : Config} (h : v < 2 ^ len) (hl : len ≤ c.busW) : v < 2 ^ c.busW :=
  lt_of_lt_of_le h (Nat.pow_le_pow_right (by norm_num) hl)

theorem word_fits_bus (c : Config) {n : Nat} (hn : n ≤ 64) (w : BitVec n) : w.toNat < 2 ^ c.busW :=
  fits_bus w.isLt (hn.trans (dword_le_busW c))

theorem zero_fits_bus (c : Config) : 0 < 2 ^ c.busW := Nat.two_pow_pos _

theorem ext_fits_bus {c : Config} {v len : Nat} (h : fits v len = true) (hl : len ≤ c.ext.width) : v < 2 ^ c.busW :=
  fits_bus (fits_iff.1 h) (hl.trans (width_le_busW c))

theorem ExtLayout.parts_le_width (x : ExtLayout) :
    x.expW + 1 ≤ x.width ∧ x.trailW ≤ x.width ∧ x.manhW ≤ x.width ∧ x.manlW ≤ x.width ∧ x.expW ≤ x.width := by
  simp only [ExtLayout.width, ExtLayout.trailW]
  omega

namespace Laws.EncodeFits

/-- The encoded operands are values of `W` bits. -/
def Statement (i : Instr) : Prop :=
  ∀ c : Config, i.wf c = true → (encode i).opA < 2 ^ c.busW ∧ (encode i).opB < 2 ^ c.busW

theorem getwS (a : Word) : Statement (.getwS a) :=
  fun c _ => ⟨word_fits_bus c (by norm_num) _, zero_fits_bus c⟩
theorem setwS (w : Word) : Statement (.setwS w) :=
  fun c _ => ⟨word_fits_bus c (by norm_num) _, zero_fits_bus c⟩
theorem extractD (a : DWord) : Statement (.extractD a) :=
  fun c _ => ⟨word_fits_bus c (by norm_num) _, zero_fits_bus c⟩
theorem insertD (hi lo : Word) : Statement (.insertD hi lo) :=
  fun c _ => ⟨word_fits_bus c (by norm_num) _, word_fits_bus c (by norm_num) _⟩
theorem gethiD (a : DWord) : Statement (.gethiD a) :=
  fun c _ => ⟨word_fits_bus c (by norm_num) _, zero_fits_bus c⟩
theorem getloD (a : DWord) : Statement (.getloD a) :=
  fun c _ => ⟨word_fits_bus c (by norm_num) _, zero_fits_bus c⟩
theorem sethiD (a : DWord) (w : Word) : Statement (.sethiD a w) :=
  fun c _ => ⟨word_fits_bus c (by norm_num) _, word_fits_bus c (by norm_num) _⟩
theorem setloD (a : DWord) (w : Word) : Statement (.setloD a w) :=
  fun c _ => ⟨word_fits_bus c (by norm_num) _, word_fits_bus c (by norm_num) _⟩
theorem extractX (a : Pattern) : Statement (.extractX a) :=
  fun c h => ⟨ext_fits_bus h le_rfl, zero_fits_bus c⟩
theorem insertX (se m : Pattern) : Statement (.insertX se m) := fun _ h =>
  ⟨ext_fits_bus (Bool.and_eq_true_iff.1 h).1 (ExtLayout.parts_le_width _).1, ext_fits_bus (Bool.and_eq_true_iff.1 h).2 (ExtLayout.parts_le_width _).2.1⟩
theorem getmanhX (a : Pattern) : Statement (.getmanhX a) :=
  fun c h => ⟨ext_fits_bus h le_rfl, zero_fits_bus c⟩
theorem getmanlX (a : Pattern) : Statement (.getmanlX a) :=
  fun c h => ⟨ext_fits_bus h le_rfl, zero_fits_bus c⟩
theorem setmanhX (a w : Pattern) : Statement (.setmanhX a w) := fun _ h =>
  ⟨ext_fits_bus (Bool.and_eq_true_iff.1 h).1 le_rfl, ext_fits_bus (Bool.and_eq_true_iff.1 h).2 (ExtLayout.parts_le_width _).2.2.1⟩
theorem setmanlX (a w : Pattern) : Statement (.setmanlX a w) := fun _ h =>
  ⟨ext_fits_bus (Bool.and_eq_true_iff.1 h).1 le_rfl, ext_fits_bus (Bool.and_eq_true_iff.1 h).2 (ExtLayout.parts_le_width _).2.2.2.1⟩
theorem getexpX (a : Pattern) : Statement (.getexpX a) :=
  fun c h => ⟨ext_fits_bus h le_rfl, zero_fits_bus c⟩
theorem setexpX (a w : Pattern) : Statement (.setexpX a w) := fun _ h =>
  ⟨ext_fits_bus (Bool.and_eq_true_iff.1 h).1 le_rfl, ext_fits_bus (Bool.and_eq_true_iff.1 h).2 (ExtLayout.parts_le_width _).2.2.2.2⟩
theorem signbitS (x : Word) : Statement (.signbitS x) :=
  fun c _ => ⟨word_fits_bus c (by norm_num) _, zero_fits_bus c⟩
theorem copysignS (x y : Word) : Statement (.copysignS x y) :=
  fun c _ => ⟨word_fits_bus c (by norm_num) _, word_fits_bus c (by norm_num) _⟩
theorem signbitD (x : DWord) : Statement (.signbitD x) :=
  fun c _ => ⟨word_fits_bus c (by norm_num) _, zero_fits_bus c⟩
theorem copysignD (x y : DWord) : Statement (.copysignD x y) :=
  fun c _ => ⟨word_fits_bus c (by norm_num) _, word_fits_bus c (by norm_num) _⟩
theorem signbitX (x : Pattern) : Statement (.signbitX x) :=
  fun c h => ⟨ext_fits_bus h le_rfl, zero_fits_bus c⟩
theorem copysignX (x y : Pattern) : Statement (.copysignX x y) := fun _ h =>
  ⟨ext_fits_bus (Bool.and_eq_true_iff.1 h).1 le_rfl, ext_fits_bus (Bool.and_eq_true_iff.1 h).2 le_rfl⟩
theorem nextafterS (x y : Word) : Statement (.nextafterS x y) :=
  fun c _ => ⟨word_fits_bus c (by norm_num) _, word_fits_bus c (by norm_num) _⟩
theorem nextafterD (x y : DWord) : Statement (.nextafterD x y) :=
  fun c _ => ⟨word_fits_bus c (by norm_num) _, word_fits_bus c (by norm_num) _⟩
theorem nextafterX (x y : Pattern) : Statement (.nextafterX x y) := fun _ h =>
  ⟨ext_fits_bus (Bool.and_eq_true_iff.1 h).1 le_rfl, ext_fits_bus (Bool.and_eq_true_iff.1 h).2 le_rfl⟩
theorem frflags : Statement .frflags := fun c _ => ⟨zero_fits_bus c, zero_fits_bus c⟩
theorem fwflags (v : FlagBits) : Statement (.fwflags v) :=
  fun c _ => ⟨word_fits_bus c (by norm_num) _, zero_fits_bus c⟩

end Laws.EncodeFits

end Sys2Proof
end

