-- ==== Sys2Proof/Laws/Words.lean ====
section
/-! SUPPORT. The word masks of the rules as arithmetic on the word's number, and what copySignWord does. -/

namespace Sys2Proof

/-- A mask of `k` ones above `m` zeros keeps that field in place. -/
theorem and_field_mask (n k m : Nat) : n &&& ((2 ^ k - 1) * 2 ^ m) = n / 2 ^ m % 2 ^ k * 2 ^ m := by
  apply Nat.eq_of_testBit_eq
  intro i
  rw [Nat.testBit_and, Nat.testBit_mul_two_pow, Nat.testBit_mul_two_pow, Nat.testBit_two_pow_sub_one,
    Nat.testBit_mod_two_pow, Nat.testBit_div_two_pow]
  by_cases h : m ≤ i
  · simp [h, Bool.and_comm]
  · simp [h]

theorem toNat_and_magMask (w : Word) : (w &&& 0x7fffffff).toNat = w.toNat % 2 ^ 31 := by
  rw [BitVec.toNat_and]
  exact Nat.and_two_pow_sub_one_eq_mod _ 31

theorem toNat_and_expMaskS (w : Word) : (w &&& 0x7f800000).toNat = w.toNat / 2 ^ 23 % 2 ^ 8 * 2 ^ 23 := by
  rw [BitVec.toNat_and]
  exact and_field_mask _ 8 23

theorem toNat_and_expMaskD (w : Word) : (w &&& 0x7ff00000).toNat = w.toNat / 2 ^ 20 % 2 ^ 11 * 2 ^ 20 := by
  rw [BitVec.toNat_and]
  exact and_field_mask _ 11 20

theorem toNat_and_signMask (w : Word) : (w &&& 0x80000000).toNat = w.toNat / 2 ^ 31 * 2 ^ 31 := by
  have h := w.isLt
  rw [BitVec.toNat_and, show (0x80000000 : Word).toNat = (2 ^ 1 - 1) * 2 ^ 31 by decide, and_field_mask,
    Nat.mod_eq_of_lt (by omega)]

/-- The sign of one word over low bits `c`. -/
theorem toNat_signMask_or (w c : Word) (hc : c.toNat < 2 ^ 31) :
    ((w &&& 0x80000000) ||| c).toNat = w.toNat / 2 ^ 31 * 2 ^ 31 + c.toNat := by
  rw [BitVec.toNat_or, toNat_and_signMask, Nat.mul_comm, Nat.two_pow_add_eq_or_of_lt hc]

theorem signBit_word (w : Word) : w.getLsbD 31 = decide (2 ^ 31 ≤ w.toNat) := by
  have := w.isLt
  rw [BitVec.getLsbD, Nat.testBit_eq_decide_div_mod_eq]
  congr 1
  simp only [eq_iff_iff]
  omega

/-- copySignWord is the top bit of `y` over the low 31 bits of `x`. -/
theorem copySignWord_toNat (x y : Word) :
    (Machine.copySignWord x y).toNat = cat (field y.toNat 31 1) 31 (field x.toNat 0 31) := by
  have hx := x.isLt
  have hy := y.isLt
  have h : (x &&& 0x7fffffff).toNat < 2 ^ 31 := by rw [toNat_and_magMask]; exact Nat.mod_lt _ (by norm_num)
  rw [Machine.copySignWord, BitVec.or_comm, toNat_signMask_or y _ h, toNat_and_magMask]
  simp only [cat, field]
  omega

end Sys2Proof
end

