-- ==== Sys2Proof/Tests/Slice0.lean ====
section
/-! SUPPORT. Small tests, their expected values from the spec: encodings from 30_encoding.md R59 and R60, answers from
95_test_vectors.md and the rules' own examples; and one witness per statement that has hypotheses. -/

namespace Sys2Proof.Tests
open Sys2Proof Sys2Proof.Machine

/-! ## Helpers -/

/-- The default configuration with NAN_ADD_DEFAULT, the one 95_test_vectors.md uses. -/
def vectorConfig : Config := { Config.default with nanAdd := .ieeeDefault }

/-- The quad configuration with NAN_ADD_DEFAULT. -/
def quadVectorConfig : Config := { Config.quad with nanAdd := .ieeeDefault }

/-- A configuration without the flag register. -/
def flaglessConfig : Config := { Config.default with hasFlags := false }

/-- A configuration whose zero results raise no flag. -/
def quietZeroConfig : Config := { Config.default with ufOnZeroResult := false }

/-- Output ports with nothing on them. -/
def quietPorts : Outputs := { rspValid := false, res := 0, flags := 0, err := false }

/-- A state with FFLAGS `f` in which the host drives `l`. -/
def driving (c : Config) (f : FlagBits) (l : List InCycle) : State :=
  { fflags := f, out := quietPorts, inputs := l, cfg := c, freeIdx := 0 }

/-- A state with FFLAGS 0 in which the host presents one beat. -/
def presenting (c : Config) (cmd : BitVec 8) (a b : Pattern) : State := driving c 0 [InCycle.command ⟨cmd, a, b⟩]

/-- `res`, `flags`, `err` and FFLAGS after a step that answers. -/
def answer : Host.Outcome State Fault Refusal → Option (Nat × FlagBits × Bool × FlagBits)
  | .next t => if t.out.rspValid then some (t.out.res, t.out.flags, t.out.err, t.fflagsPort) else none
  | .fault _ => none
  | .refused _ => none

/-- FFLAGS, `rsp_valid`, `flags` and `err` after a step that answers nothing. -/
def silence : Host.Outcome State Fault Refusal → Option (FlagBits × Bool × FlagBits × Bool)
  | .next t => some (t.fflagsPort, t.out.rspValid, t.out.flags, t.out.err)
  | .fault _ => none
  | .refused _ => none

/-! ## Decoding: every command, `GRP FMT FN` written out from R56 to R59, operands by R60 -/

theorem test_decode_accessors_binary32 :
    decode Config.default ⟨0b00000000, 0xffc00001, 0⟩ = .ok (.getwS 0xffc00001) ∧
    decode Config.default ⟨0b00000001, 0x17f800000, 0⟩ = .ok (.setwS 0x7f800000) := by decide

theorem test_decode_accessors_binary64 :
    decode Config.default ⟨0b00010000, 0xbff8000000000001, 0⟩ = .ok (.extractD 0xbff8000000000001) ∧
    decode Config.default ⟨0b00010001, 0xff80000000, 0xff00000001⟩ = .ok (.insertD 0x80000000 0x00000001) ∧
    decode Config.default ⟨0b00010010, 0xc008000000000000, 0⟩ = .ok (.gethiD 0xc008000000000000) ∧
    decode Config.default ⟨0b00010011, 0x3ff00000deadbeef, 0⟩ = .ok (.getloD 0x3ff00000deadbeef) ∧
    decode Config.default ⟨0b00010100, 0x0000000000000001, 0x7ff00000⟩ = .ok (.sethiD 0x0000000000000001 0x7ff00000) ∧
    decode Config.default ⟨0b00010101, 0xbff00000ffffffff, 0x1⟩ = .ok (.setloD 0xbff00000ffffffff 0x1) := by decide

theorem test_decode_accessors_extended :
    decode Config.default ⟨0b00100000, 0xbfff8000000000000000, 0⟩ = .ok (.extractX 0xbfff8000000000000000) ∧
    decode Config.default ⟨0b00100001, 0x18000, 0x0000000000000001⟩ = .ok (.insertX 0x8000 0x0000000000000001) ∧
    decode Config.default ⟨0b00100010, 0x00018000000000000000, 0⟩ = .ok (.getmanhX 0x00018000000000000000) ∧
    decode Config.default ⟨0b00100011, 0x00000000000000000001, 0⟩ = .ok (.getmanlX 0x00000000000000000001) ∧
    decode Config.default ⟨0b00100100, 0x3fff8000000000000000, 0x1c0000000⟩ = .ok (.setmanhX 0x3fff8000000000000000 0xc0000000) ∧
    decode Config.default ⟨0b00100101, 0x3fff8000000000000000, 0x100000001⟩ = .ok (.setmanlX 0x3fff8000000000000000 0x00000001) ∧
    decode Config.default ⟨0b00100110, 0xbfff8000000000000000, 0⟩ = .ok (.getexpX 0xbfff8000000000000000) ∧
    decode Config.default ⟨0b00100111, 0xbfff8000000000000000, 0xc000⟩ = .ok (.setexpX 0xbfff8000000000000000 0x4000) := by decide

theorem test_decode_sign_primitives :
    decode Config.default ⟨0b01000000, 0x80000000, 0⟩ = .ok (.signbitS 0x80000000) ∧
    decode Config.default ⟨0b01000001, 0x40400000, 0xbf800000⟩ = .ok (.copysignS 0x40400000 0xbf800000) ∧
    decode Config.default ⟨0b01010000, 0x8000000000000000, 0⟩ = .ok (.signbitD 0x8000000000000000) ∧
    decode Config.default ⟨0b01010001, 0x3ff0000012345678, 0x00000000ffffffff⟩ = .ok (.copysignD 0x3ff0000012345678 0x00000000ffffffff) ∧
    decode Config.default ⟨0b01100000, 0x80000000000000000000, 0⟩ = .ok (.signbitX 0x80000000000000000000) ∧
    decode Config.default ⟨0b01100001, 0x3fff0000000000000005, 0x80000000000000000000⟩ = .ok (.copysignX 0x3fff0000000000000005 0x80000000000000000000) := by decide

theorem test_decode_nextafter :
    decode Config.default ⟨0b10000000, 0x3f800000, 0x40000000⟩ = .ok (.nextafterS 0x3f800000 0x40000000) ∧
    decode Config.default ⟨0b10010000, 0x3ff0000000000000, 0x4000000000000000⟩ = .ok (.nextafterD 0x3ff0000000000000 0x4000000000000000) ∧
    decode Config.default ⟨0b10100000, 0x3fff8000000000000000, 0x40008000000000000000⟩ = .ok (.nextafterX 0x3fff8000000000000000 0x40008000000000000000) := by decide

theorem test_decode_system :
    decode Config.default ⟨0b11000000, 0xffff, 0xffff⟩ = .ok (.frflags) ∧
    decode Config.default ⟨0b11000001, 0xf5, 0xf5⟩ = .ok (.fwflags 0x5) := by decide

/-- The illegal words by their reasons (30_encoding.md R57, R62). -/
theorem test_decode_illegal :
    decode Config.default ⟨0b00000010, 0, 0⟩ = .error .undefinedFunction ∧
    decode Config.default ⟨0b00010110, 0, 0⟩ = .error .undefinedFunction ∧
    decode Config.default ⟨0b00101000, 0, 0⟩ = .error .undefinedFunction ∧
    decode Config.default ⟨0b01110000, 0, 0⟩ = .error .reservedFormat ∧
    decode Config.default ⟨0b10000001, 0, 0⟩ = .error .undefinedFunction ∧
    decode Config.default ⟨0b11010000, 0, 0⟩ = .error .systemFormat ∧
    decode Config.default ⟨0b11111111, 0, 0⟩ = .error .reservedFormat := by decide

/-- The example beats of 30_encoding.md R59's table as opcode-table words: 8 bits, operands 0. -/
theorem test_decodeTableWord :
    decodeTableWord 8 0x80 = some (.nextafterS 0 0) ∧ decodeTableWord 8 0xC1 = some (.fwflags 0) ∧
    decodeTableWord 8 0x30 = none := by decide

/-- The next step runs the command of the word (log 13): FRFLAGS after reset reads 0. -/
theorem test_withFetchWord : answer (step (State.reset.withFetchWord 8 0xC0)) = some (0, 0, false, 0) := by decide

/-! ## WellFormed: an ill-formed term for each check -/

theorem test_wf_refuses_extended_operands :
    (Instr.extractX (2 ^ 80)).wf Config.default = false ∧ (Instr.getmanhX (2 ^ 80)).wf Config.default = false ∧
    (Instr.getmanlX (2 ^ 80)).wf Config.default = false ∧ (Instr.getexpX (2 ^ 80)).wf Config.default = false ∧
    (Instr.signbitX (2 ^ 80)).wf Config.default = false := by decide

theorem test_wf_refuses_extended_fields :
    (Instr.insertX (2 ^ 16) 0).wf Config.default = false ∧ (Instr.insertX 0 (2 ^ 64)).wf Config.default = false ∧
    (Instr.setmanhX (2 ^ 80) 0).wf Config.default = false ∧ (Instr.setmanhX 0 (2 ^ 32)).wf Config.default = false ∧
    (Instr.setmanlX (2 ^ 80) 0).wf Config.default = false ∧ (Instr.setmanlX 0 (2 ^ 32)).wf Config.default = false ∧
    (Instr.setexpX (2 ^ 80) 0).wf Config.default = false ∧ (Instr.setexpX 0 (2 ^ 15)).wf Config.default = false := by
  decide

theorem test_wf_refuses_extended_pairs :
    (Instr.copysignX (2 ^ 80) 0).wf Config.default = false ∧ (Instr.copysignX 0 (2 ^ 80)).wf Config.default = false ∧
    (Instr.nextafterX (2 ^ 80) 0).wf Config.default = false ∧
    (Instr.nextafterX 0 (2 ^ 80)).wf Config.default = false := by decide

theorem test_wf_accepts_boundary_operands :
    (Instr.insertX (2 ^ 16 - 1) (2 ^ 64 - 1)).wf Config.default = true ∧
    (Instr.setexpX (2 ^ 80 - 1) (2 ^ 15 - 1)).wf Config.default = true ∧
    (Instr.nextafterX (2 ^ 128 - 1) (2 ^ 128 - 1)).wf Config.quad = true := by decide

/-- One layout for each part of the constraint of 00_scope.md R9. -/
theorem test_layout_wf_refuses :
    ExtLayout.wf ⟨1, 32, 32, 0⟩ = false ∧ ExtLayout.wf ⟨15, 1, 32, 0⟩ = false ∧ ExtLayout.wf ⟨15, 32, 0, 0⟩ = false ∧
    ExtLayout.wf ⟨15, 32, 32, 0x40000000⟩ = false ∧ ExtLayout.wf ⟨2, 2, 1, 2⟩ = true := by decide

/-! ## One step, expected answers from 95_test_vectors.md: `res`, `flags`, `err`, FFLAGS after -/

/-- 95_test_vectors.md: "bus bits above 31 ignored". -/
theorem test_getwS :
    answer (step (presenting vectorConfig 0x00 0xabcd3f800000 0)) =
      some (0x3f800000, 0x0, false, 0x0) := by decide

/-- 95_test_vectors.md: "infinity". -/
theorem test_setwS :
    answer (step (presenting vectorConfig 0x01 0x7f800000 0)) =
      some (0x7f800000, 0x0, false, 0x0) := by decide

theorem test_extractD :
    answer (step (presenting vectorConfig 0x10 0xbff8000000000001 0)) =
      some (0xbff8000000000001, 0x0, false, 0x0) := by decide

/-- 95_test_vectors.md: "bits above 31 of both operands ignored". -/
theorem test_insertD :
    answer (step (presenting vectorConfig 0x11 0xff80000000 0xff00000001)) =
      some (0x8000000000000001, 0x0, false, 0x0) := by decide

theorem test_gethiD :
    answer (step (presenting vectorConfig 0x12 0xc008000000000000 0)) =
      some (0xc0080000, 0x0, false, 0x0) := by decide

theorem test_getloD :
    answer (step (presenting vectorConfig 0x13 0x3ff00000deadbeef 0)) =
      some (0xdeadbeef, 0x0, false, 0x0) := by decide

/-- 95_test_vectors.md: "low word kept". -/
theorem test_sethiD :
    answer (step (presenting vectorConfig 0x14 0x400800000000000a 0xc0080000)) =
      some (0xc00800000000000a, 0x0, false, 0x0) := by decide

/-- 95_test_vectors.md: "high word kept". -/
theorem test_setloD :
    answer (step (presenting vectorConfig 0x15 0xbff00000ffffffff 0x00000000)) =
      some (0xbff0000000000000, 0x0, false, 0x0) := by decide

theorem test_extractX :
    answer (step (presenting vectorConfig 0x20 0xbfff8000000000000000 0)) =
      some (0xbfff8000000000000000, 0x0, false, 0x0) := by decide

/-- 95_test_vectors.md: "op_a bit 16 ignored". -/
theorem test_insertX :
    answer (step (presenting vectorConfig 0x21 0x18000 0x0000000000000001)) =
      some (0x80000000000000000001, 0x0, false, 0x0) := by decide

/-- 95_test_vectors.md: "NBIT included". -/
theorem test_getmanhX :
    answer (step (presenting vectorConfig 0x22 0x00018000000000000000 0)) =
      some (0x80000000, 0x0, false, 0x0) := by decide

theorem test_getmanlX :
    answer (step (presenting vectorConfig 0x23 0x00000000000000000001 0)) =
      some (0x00000001, 0x0, false, 0x0) := by decide

theorem test_setmanhX :
    answer (step (presenting vectorConfig 0x24 0x3fff8000000000000000 0xc0000000)) =
      some (0x3fffc000000000000000, 0x0, false, 0x0) := by decide

theorem test_setmanlX :
    answer (step (presenting vectorConfig 0x25 0x00000000000000000000 0x00000001)) =
      some (0x00000000000000000001, 0x0, false, 0x0) := by decide

/-- 95_test_vectors.md: "sign not included". -/
theorem test_getexpX :
    answer (step (presenting vectorConfig 0x26 0xffff8000000000000000 0)) =
      some (0x7fff, 0x0, false, 0x0) := by decide

/-- 95_test_vectors.md: "1.0 becomes 2.0". -/
theorem test_setexpX :
    answer (step (presenting vectorConfig 0x27 0x3fff8000000000000000 0x4000)) =
      some (0x40008000000000000000, 0x0, false, 0x0) := by decide

/-- 95_test_vectors.md: "signbit(-0.0) is true". -/
theorem test_signbitS :
    answer (step (presenting vectorConfig 0x40 0x80000000 0)) =
      some (1, 0x0, false, 0x0) := by decide

/-- 95_test_vectors.md: "signbit(-0.0) is true". -/
theorem test_signbitD :
    answer (step (presenting vectorConfig 0x50 0x8000000000000000 0)) =
      some (1, 0x0, false, 0x0) := by decide

/-- 95_test_vectors.md: "signbit(-0.0) is true". -/
theorem test_signbitX :
    answer (step (presenting vectorConfig 0x60 0x80000000000000000000 0)) =
      some (1, 0x0, false, 0x0) := by decide

/-- 95_test_vectors.md: "copysign(NaN, -1.0): payload kept". -/
theorem test_copysignS :
    answer (step (presenting vectorConfig 0x41 0x7fc00123 0xbf800000)) =
      some (0xffc00123, 0x0, false, 0x0) := by decide

/-- 95_test_vectors.md: "low word of y not read". -/
theorem test_copysignD :
    answer (step (presenting vectorConfig 0x51 0x3ff0000012345678 0x00000000ffffffff)) =
      some (0x3ff0000012345678, 0x0, false, 0x0) := by decide

/-- 95_test_vectors.md: "non-canonical x passes unchanged". -/
theorem test_copysignX :
    answer (step (presenting vectorConfig 0x61 0x3fff0000000000000005 0x80000000000000000000)) =
      some (0xbfff0000000000000005, 0x0, false, 0x0) := by decide

/-- 95_test_vectors.md: "step 5: -MAXFIN toward -infinity". -/
theorem test_nextafterS_overflow :
    answer (step (presenting vectorConfig 0x80 0xff7fffff 0xff800000)) =
      some (0xff800000, 0x5, false, 0x5) := by decide

/-- 95_test_vectors.md: "step 1: signalling NaN, NAN_ADD_DEFAULT raises NV". -/
theorem test_nextafterS_signalling :
    answer (step (presenting vectorConfig 0x80 0x7f800001 0x3f800000)) =
      some (0x7fc00001, 0x8, false, 0x8) := by decide

/-- 95_test_vectors.md: "step 7: low word wraps, carry into high word". -/
theorem test_nextafterD_carry :
    answer (step (presenting vectorConfig 0x90 0x3ff00000ffffffff 0x4000000000000000)) =
      some (0x3ff0000100000000, 0x0, false, 0x0) := by decide

/-- 95_test_vectors.md: "step 6: MINNORM toward 0". -/
theorem test_nextafterD_underflow :
    answer (step (presenting vectorConfig 0x90 0x0010000000000000 0x0000000000000000)) =
      some (0x000fffffffffffff, 0x3, false, 0x3) := by decide

/-- 95_test_vectors.md: "step 7: borrow through both words and exponent; NBIT stays". -/
theorem test_nextafterX_borrow :
    answer (step (presenting vectorConfig 0xA0 0x3fff8000000000000000 0x00000000000000000000)) =
      some (0x3ffeffffffffffffffff, 0x0, false, 0x0) := by decide

/-- 95_test_vectors.md: "rule R125: exponent 0 with NBIT 1 is a zero for step 3". -/
theorem test_nextafterX_noncanonical :
    answer (step (presenting vectorConfig 0xA0 0x00008000000000000000 0x3fff8000000000000000)) =
      some (0x00000000000000000001, 0x3, false, 0x3) := by decide
/-- 43_system.md R140's example: UF and NX stand in FFLAGS and are read, not cleared. -/
theorem test_frflags :
    answer (step (driving vectorConfig 0x3 [InCycle.command ⟨0xC0, 0, 0⟩])) = some (0x3, 0x0, false, 0x3) := by decide

/-- 43_system.md R141: overwritten, not accumulated; bits above 3 ignored. -/
theorem test_fwflags :
    answer (step (driving vectorConfig 0xA [InCycle.command ⟨0xC1, 0xf5, 0⟩])) = some (0x0, 0x0, false, 0x5) := by
  decide

/-- 10_state.md R24: the flags of a command are added to those that stand. -/
theorem test_flags_accumulate :
    answer (step (driving vectorConfig 0x8 [InCycle.command ⟨0x80, 0x7f7fffff, 0x7f800000⟩])) =
      some (0x7f800000, 0x5, false, 0xD) := by decide

/-- 60_exceptions.md R152. -/
theorem test_illegal_command :
    answer (step (driving vectorConfig 0x5 [InCycle.command ⟨0x30, 0x1234, 0x5678⟩])) = some (0x0, 0x0, true, 0x5) := by
  decide

/-- 70_reset_and_hazards.md R170: the command of the reset cycle is discarded. -/
theorem test_reset_wins :
    silence (step (driving vectorConfig 0xF [⟨true, true, ⟨0x80, 0, 0x3f800000⟩⟩])) = some (0x0, false, 0x0, false) := by
  decide

/-- 10_state.md R37. -/
theorem test_idle_cycle : silence (step (driving vectorConfig 0x5 [])) = some (0x5, false, 0x0, false) := by decide

/-- 10_state.md R39. -/
theorem test_no_flag_register :
    answer (step (presenting flaglessConfig 0x80 0 0x3f800000)) = some (0x00000001, 0x0, false, 0x0) ∧
    answer (step (presenting flaglessConfig 0xC1 0xF 0)) = some (0x0, 0x0, false, 0x0) := by decide

/-- 42_nextafter.md R118: a zero result under UF_ON_ZERO_RESULT = false. -/
theorem test_quiet_zero_result :
    answer (step (presenting quietZeroConfig 0x80 0x00000001 0)) = some (0x00000000, 0x0, false, 0x0) := by decide

/-- 95_test_vectors.md, quad: "step 7: manl wraps, carry into manh" and step 6 at MINNORM. -/
theorem test_quad_steps :
    answer (step (presenting quadVectorConfig 0xA0 0x3fff000000000000ffffffffffffffff
      0x40000000000000000000000000000000)) = some (0x3fff0000000000010000000000000000, 0x0, false, 0x0) ∧
    answer (step (presenting quadVectorConfig 0xA0 0x00010000000000000000000000000000 0)) =
      some (0x0000ffffffffffffffffffffffffffff, 0x3, false, 0x3) := by decide

/-- 93_implementation_defined.md #1: a configuration that breaks R9. -/
theorem test_bad_layout_refused :
    step (driving { Config.default with ext := ⟨15, 32, 32, 1⟩ } 0 []) = .refused .extLayout := by rfl

/-- 30_encoding.md R65, R66: a named pattern is read in the format of its mnemonic, and FABS writes the omitted 0. -/
theorem test_assembler :
    assemble Config.default ⟨"NEXTAFTER.S", some (.value 0x3f800000), some (.named true .inf)⟩ =
      some ⟨0x80, 0x3f800000, 0xff800000⟩ ∧
    assemble Config.default ⟨"FABS.D", some (.value 0xc008000000000000), none⟩ =
      some ⟨0x51, 0xc008000000000000, 0⟩ ∧
    assemble Config.default ⟨"FCFLAGS", none, none⟩ = some ⟨0xC1, 0, 0⟩ ∧
    assemble Config.default ⟨"COPYSIGN.S", some (.value 1), none⟩ = none := by decide

/-- 20_memory.md R42: the high word of 1.0 lies at the higher address under LITTLE and at the lower under BIG. -/
theorem test_host_word_order :
    busOfStorage .little 0x00000000 0x3ff00000 = 0x3ff0000000000000 ∧
    busOfStorage .big 0x3ff00000 0x00000000 = 0x3ff0000000000000 := by decide

/-! ## Witnesses: a concrete state and operands that meet the hypotheses of each statement -/

/-- A state of the default configuration with flags standing, about to be reset while a command is presented, and with
another command to come. -/
def resetting : State :=
  driving Config.default 0xF [⟨true, true, ⟨0x80, 0, 0x3f800000⟩⟩, InCycle.command ⟨0xC0, 0, 0⟩]

theorem witness_ResetClearsEverything :
    resetting.cfg.wf = true ∧ resetting.ports.rst = true ∧ resetting.inputs.tail = [InCycle.command ⟨0xC0, 0, 0⟩] ∧
    decode resetting.cfg ⟨0xC0, 0, 0⟩ = .ok .frflags := by decide

theorem witness_IdleCycleHoldsFlags :
    ((driving Config.default 0x5 []).cfg.wf = true ∧ (driving Config.default 0x5 []).ports.rst = false ∧
      (driving Config.default 0x5 []).ports.cmdValid = false) ∧
    ((driving Config.default 0x5 [InCycle.idle]).cfg.wf = true ∧
      (driving Config.default 0x5 [InCycle.idle]).ports.rst = false ∧
      (driving Config.default 0x5 [InCycle.idle]).ports.cmdValid = false) := by decide

theorem witness_StepRunsDecodedCommand :
    (driving Config.quad 0x1 []).cfg.wf = true ∧
    decode Config.quad ⟨0x22, 2 ^ 128 - 1, 0⟩ = .ok (.getmanhX (2 ^ 128 - 1)) := by decide

theorem witness_EveryCycleCompletes : (driving flaglessConfig 0x0 []).cfg.wf = true := by decide

theorem witness_OnlyBadLayoutIsRefused :
    step (driving { Config.default with ext := ⟨1, 32, 32, 0⟩ } 0 []) = .refused .extLayout := by rfl

/-- A state a step can leave: an overflow has just been answered. -/
def answeredOverflow : State :=
  { driving Config.default 0xD [InCycle.command ⟨0x41, 0x40400000, 0xbf800000⟩] with
    out := { rspValid := true, res := 0x7f800000, flags := 0x5, err := false } }

theorem witness_StepKeepsInvariant : Inv answeredOverflow ∧ ∃ t, step answeredOverflow = .next t :=
  ⟨⟨by decide, by decide, ⟨by decide, by decide, by decide, by decide, by decide⟩⟩, _, rfl⟩

theorem witness_DefinedCommandWords :
    (∃ i, decode Config.default ⟨0xC1, 0, 0⟩ = .ok i) ∧ (0xC1 : BitVec 8) ∈ legalCommandWords ∧
    (0xC2 : BitVec 8) ∉ legalCommandWords := ⟨⟨.fwflags 0, by decide⟩, by decide, by decide⟩

/-- Words on either side of the last function of each group and format. -/
theorem witness_IllegalCommandFields :
    (0x01 : BitVec 8) ∈ legalCommandWords ∧ (0x02 : BitVec 8) ∉ legalCommandWords ∧
    (0x15 : BitVec 8) ∈ legalCommandWords ∧ (0x16 : BitVec 8) ∉ legalCommandWords ∧
    (0x27 : BitVec 8) ∈ legalCommandWords ∧ (0x28 : BitVec 8) ∉ legalCommandWords ∧
    (0x61 : BitVec 8) ∈ legalCommandWords ∧ (0x62 : BitVec 8) ∉ legalCommandWords ∧
    (0xA0 : BitVec 8) ∈ legalCommandWords ∧ (0xA1 : BitVec 8) ∉ legalCommandWords ∧
    (0xD0 : BitVec 8) ∉ legalCommandWords ∧ (0x30 : BitVec 8) ∉ legalCommandWords := by decide

theorem witness_IllegalCommandResponse :
    (driving Config.default 0x5 []).cfg.wf = true ∧ (0xFF : BitVec 8) ∉ legalCommandWords ∧
    (0x00 : BitVec 8) ∈ legalCommandWords := by decide

theorem witness_DecodeEncode :
    (Instr.setexpX (2 ^ 80 - 1) (2 ^ 15 - 1)).wf Config.default = true ∧
    (Instr.insertX (2 ^ 16 - 1) (2 ^ 112 - 1)).wf Config.quad = true := by decide

theorem witness_EncodeDecode :
    decode Config.default ⟨0x27, 2 ^ 80 + 7, 2 ^ 15 + 3⟩ = .ok (.setexpX 7 3) := by decide

theorem witness_UnconsumedBitsAreIgnored :
    decode Config.default ⟨0x00, 5, 0⟩ = .ok (.getwS 5) ∧
    (2 ^ 40 + 5) % 2 ^ (Instr.getwS 5).widthA Config.default.ext = 5 % 2 ^ (Instr.getwS 5).widthA Config.default.ext ∧
    77 % 2 ^ (Instr.getwS 5).widthB Config.default.ext = 0 % 2 ^ (Instr.getwS 5).widthB Config.default.ext := by decide

/-- `8 + 2W` bits with `cmd` most significant, then `op_a`, then `op_b`: written out for `W = 80`. -/
theorem test_beat_number :
    beatNumber Config.default ⟨0x41, 0x3f800000, 0x80000000⟩ = 0x410000000000003f80000000000000000080000000 ∧
    beatOfNumber Config.default 0x410000000000003f80000000000000000080000000 = ⟨0x41, 0x3f800000, 0x80000000⟩ := by
  decide

theorem witness_BeatAsOneNumber :
    2 ^ 80 - 1 < 2 ^ Config.default.busW ∧ 2 ^ 128 - 1 < 2 ^ Config.quad.busW := by decide

/-- Bus values with bits set above the operands, in the quad configuration. -/
theorem witness_CommandsReadTheirOperands :
    (0xffffffff : Word).toNat = (2 ^ 128 - 1) % 2 ^ 32 ∧ (0x00000007 : Word).toNat = (2 ^ 64 + 7) % 2 ^ 32 ∧
    (0xffffffffffffffff : DWord).toNat = (2 ^ 128 - 1) % 2 ^ 64 ∧ (0x7 : DWord).toNat = (2 ^ 64 + 7) % 2 ^ 64 ∧
    (0xf : FlagBits).toNat = (2 ^ 128 - 1) % 2 ^ 4 ∧ 128 = Config.quad.ext.width ∧ 15 = Config.quad.ext.expW ∧
    48 = Config.quad.ext.manhW ∧ 64 = Config.quad.ext.manlW ∧ 112 = 48 + 64 := by decide

theorem witness_Binary32Accessors : (0xffc00001 : Word).toNat = (2 ^ 40 + 0xffc00001) % 2 ^ 32 := by decide

theorem witness_Binary64Accessors :
    (0xff80000000000000 : DWord).toNat = (2 ^ 64 + 0xff80000000000000) % 2 ^ 64 ∧
    (0x00000000 : Word).toNat = (2 ^ 64 + 0xff80000000000000) % 2 ^ 32 ∧
    (0x00000001 : Word).toNat = 0xff00000001 % 2 ^ 32 := by decide

theorem witness_ExtendedAccessors :
    80 = Config.default.ext.width ∧ 15 = Config.default.ext.expW ∧ 32 = Config.default.ext.manhW ∧
    32 = Config.default.ext.manlW ∧ 64 = 32 + 32 ∧ 2 ^ 80 - 1 = (2 ^ 81 - 1) % 2 ^ 80 := by decide

theorem witness_SignbitReadsTopBit :
    (0x80000000 : Word).toNat = (2 ^ 79 + 2 ^ 31) % 2 ^ 32 ∧ (0x80000000 : DWord).toNat = (2 ^ 79 + 2 ^ 31) % 2 ^ 64 ∧
    80 = Config.default.ext.width ∧ 2 ^ 79 + 2 ^ 31 = (2 ^ 79 + 2 ^ 31) % 2 ^ 80 := by decide

theorem witness_CopysignReplacesTopBit :
    (0x7fc00123 : Word).toNat = 0x7fc00123 % 2 ^ 32 ∧ (0x80000000 : Word).toNat = 0x80000000 % 2 ^ 32 ∧
    (0x7fc00123 : DWord).toNat = 0x7fc00123 % 2 ^ 64 ∧ (0x80000000 : DWord).toNat = 0x80000000 % 2 ^ 64 ∧
    80 = Config.default.ext.width ∧ 0x7fc00123 = 0x7fc00123 % 2 ^ 80 ∧ 0x80000000 = 0x80000000 % 2 ^ 80 := by decide

theorem witness_CopysignLawsExtended :
    80 = Config.default.ext.width ∧ 2 ^ 80 - 1 < 2 ^ 80 ∧ 0 < 2 ^ 80 := by decide

theorem witness_NextafterBinary32Refines : (driving quietZeroConfig 0xF []).cfg.wf = true := by decide

theorem witness_NextafterBinary64Refines : (driving vectorConfig 0xF []).cfg.wf = true := by decide

/-- The narrowest layouts R9 allows, with and without a leading bit, beside the two documented ones. -/
theorem witness_NextafterExtendedRefines :
    Config.wf { Config.default with ext := ⟨2, 2, 1, 0⟩ } = true ∧
    Config.wf { Config.default with ext := ⟨2, 2, 1, 2⟩ } = true ∧ Config.default.wf = true ∧ Config.quad.wf = true := by
  decide

theorem witness_NextafterOfNanIsNan :
    Config.default.wf = true ∧ 0x7fff8000000000000001 < 2 ^ (Config.default.fmt .X).width ∧
    (Config.default.fmt .X).classOf 0x7fff8000000000000001 = .nan ∧ (Config.default.fmt .S).classOf 0x7f800001 = .nan ∧
    (Config.default.fmt .S).classOf 0x7f800000 = .infinity := by decide

theorem witness_NanAddDefaultQuiets :
    vectorConfig.wf = true ∧ vectorConfig.nanAdd = .ieeeDefault ∧
    ((vectorConfig.fmt .S).classOf 0x7f800001 = .nan ∧ (0x7f800001 : Nat).testBit 22 = false) ∧
    ((vectorConfig.fmt .S).classOf 0x3f800000 ≠ .nan ∧ (vectorConfig.fmt .S).classOf 0x7fc00000 = .nan ∧
      (0x7fc00000 : Nat).testBit 22 = true) ∧ (vectorConfig.fmt .S).fracW - 1 = 22 := by decide

/-- Both zeros, one pattern, and a non-canonical pair with one value. -/
theorem witness_NextafterOfEqualIsY :
    Config.default.wf = true ∧
    (isNumber (Config.default.fmt .S) 0x80000000 ∧ isNumber (Config.default.fmt .S) 0 ∧
      (Config.default.fmt .S).ord 0x80000000 = (Config.default.fmt .S).ord 0) ∧
    (isNumber (Config.default.fmt .X) 0x3fff0000000000000000 ∧ isNumber (Config.default.fmt .X) 0x3fff8000000000000000 ∧
      (Config.default.fmt .X).ord 0x3fff0000000000000000 = (Config.default.fmt .X).ord 0x3fff8000000000000000) ∧
    (Config.default.fmt .D).canonical 0x3ff0000000000000 = true := by
  unfold isNumber
  decide

theorem witness_NextafterOfZeroIsMinSub :
    Config.default.wf = true ∧ isNumber (Config.default.fmt .D) 0x8000000000000000 ∧
    isNumber (Config.default.fmt .D) 0x0000000000000001 ∧ (Config.default.fmt .D).mag 0x8000000000000000 = 0 ∧
    (Config.default.fmt .D).mag 0x0000000000000001 ≠ 0 := by
  unfold isNumber
  decide

/-- The least and the greatest magnitude a step can start from. -/
theorem witness_NextafterStepsMagnitudeByOne :
    Config.default.wf = true ∧ takesStep (Config.default.fmt .S) 0x80000001 0x00000001 ∧
    takesStep (Config.default.fmt .X) 0xffff8000000000000000 0x00000000000000000000 := by
  unfold takesStep isNumber
  decide

theorem witness_NextafterOverflows :
    Config.default.wf = true ∧ takesStep (Config.default.fmt .S) 0xff7fffff 0xff800000 ∧
    steppedMag (Config.default.fmt .S) 0xff7fffff 0xff800000 / 2 ^ (Config.default.fmt .S).fracW =
      (Config.default.fmt .S).expMax := by
  unfold takesStep isNumber
  decide

/-- A subnormal result, a zero result where UF_ON_ZERO_RESULT is false, and the step up to the smallest normal. -/
theorem witness_NextafterUnderflows :
    (Config.default.wf = true ∧ takesStep (Config.default.fmt .D) 0x0010000000000000 0 ∧
      steppedMag (Config.default.fmt .D) 0x0010000000000000 0 / 2 ^ (Config.default.fmt .D).fracW = 0) ∧
    (quietZeroConfig.wf = true ∧ quietZeroConfig.ufOnZeroResult = false ∧
      takesStep (quietZeroConfig.fmt .S) 0x00000001 0 ∧ steppedMag (quietZeroConfig.fmt .S) 0x00000001 0 = 0) ∧
    ((Config.default.fmt .S).classOf 0x007fffff = .subnormal ∧
      takesStep (Config.default.fmt .S) 0x007fffff 0x3f800000 ∧
      steppedMag (Config.default.fmt .S) 0x007fffff 0x3f800000 / 2 ^ (Config.default.fmt .S).fracW = 1) := by
  unfold takesStep isNumber
  decide

/-- The least normal result and the greatest. -/
theorem witness_NextafterReachesNormal :
    Config.default.wf = true ∧ takesStep (Config.default.fmt .S) 0x007fffff 0x3f800000 ∧
    steppedMag (Config.default.fmt .S) 0x007fffff 0x3f800000 / 2 ^ (Config.default.fmt .S).fracW = 1 ∧
    takesStep (Config.default.fmt .S) 0x7f800000 0 ∧
    steppedMag (Config.default.fmt .S) 0x7f800000 0 / 2 ^ (Config.default.fmt .S).fracW = 254 ∧
    (Config.default.fmt .S).expMax = 255 ∧ (Config.default.fmt .S).classOf 0x7f800000 = .infinity := by
  unfold takesStep isNumber
  decide

/-- One pair of operands for each clause: step 1, step 2, step 3, and steps 4 to 7. -/
theorem witness_NextafterFlagsByEndingStep :
    Config.default.wf = true ∧ (Config.default.fmt .S).classOf 0xffffffff = .nan ∧
    (isNumber (Config.default.fmt .S) 0x7f800000 ∧
      (Config.default.fmt .S).ord 0x7f800000 = (Config.default.fmt .S).ord 0x7f800000) ∧
    (isNumber (Config.default.fmt .S) 0 ∧ isNumber (Config.default.fmt .S) 0xff800000 ∧
      (Config.default.fmt .S).ord 0 ≠ (Config.default.fmt .S).ord 0xff800000 ∧ (Config.default.fmt .S).mag 0 = 0) ∧
    takesStep (Config.default.fmt .S) 0x00000001 0xff800000 := by
  unfold takesStep isNumber
  decide

/-- Both clauses, the second from the boundary number that steps to a zero. -/
theorem witness_NextafterIsAdjacentTowardY :
    Config.default.wf = true ∧ isNumber (Config.default.fmt .S) 0x7f7fffff ∧ isNumber (Config.default.fmt .S) 0x7f800000 ∧
    (Config.default.fmt .S).ord 0x7f7fffff < (Config.default.fmt .S).ord 0x7f800000 ∧
    isNumber (Config.default.fmt .S) 0x00000001 ∧ isNumber (Config.default.fmt .S) 0x80000000 ∧
    (Config.default.fmt .S).ord 0x80000000 < (Config.default.fmt .S).ord 0x00000001 := by
  unfold isNumber
  decide

theorem witness_NextafterRoundTrip :
    Config.default.wf = true ∧ 0x00018000000000000000 < 2 ^ (Config.default.fmt .X).width ∧
    (Config.default.fmt .X).canonical 0x00018000000000000000 = true ∧
    (Config.default.fmt .X).classOf 0x00018000000000000000 = .normal ∧
    (Config.default.fmt .S).classOf 0x00000001 = .subnormal ∧ (Config.default.fmt .S).classOf 0x7f7fffff = .normal ∧
    (Config.default.fmt .S).canonical 0x00000001 = true := by decide

theorem witness_NextafterIgnoresLeadingBit :
    Config.default.wf = true ∧ isNumber (Config.default.fmt .X) 0x3fff8000000000000000 ∧
    isNumber (Config.default.fmt .X) 0x40008000000000000000 ∧ 0x3fff0000000000000000 < 2 ^ (Config.default.fmt .X).width ∧
    (Config.default.fmt .X).ord 0x3fff8000000000000000 ≠ (Config.default.fmt .X).ord 0x40008000000000000000 ∧
    (Config.default.fmt .X).sign 0x3fff0000000000000000 = (Config.default.fmt .X).sign 0x3fff8000000000000000 ∧
    (Config.default.fmt .X).expf 0x3fff0000000000000000 = (Config.default.fmt .X).expf 0x3fff8000000000000000 ∧
    (Config.default.fmt .X).frac 0x3fff0000000000000000 = (Config.default.fmt .X).frac 0x3fff8000000000000000 := by
  unfold isNumber
  decide

theorem witness_NextafterAnswersPatternOfFormat :
    Config.quad.wf = true ∧ 2 ^ 128 - 1 < 2 ^ (Config.quad.fmt .X).width := by decide

/-- The register is there; and a cycle that presents no FWFLAGS, one that presents a command and one that presents
none. -/
theorem witness_FlagsAccumulate :
    (driving Config.default 0x5 []).cfg.hasFlags = true ∧ (Instr.getwS 0).cmd ≠ 0xC1 ∧ (Instr.getwS 0).cmd ≠ 0x80 ∧
    (Instr.getwS 0).cmd ≠ 0x90 ∧ (Instr.getwS 0).cmd ≠ 0xA0 ∧
    (presenting Config.default 0x80 0 1).ports.rst = false ∧
    (presenting Config.default 0x80 0 1).ports.beat.cmd ≠ 0xC1 ∧
    (driving Config.default 0x5 []).ports.cmdValid = false := by decide

theorem witness_FlagsAccumulate_step : ∃ t, step (presenting Config.default 0x80 0 1) = .next t := ⟨_, rfl⟩

theorem witness_FwflagsOverwrites : (0xf : FlagBits).toNat = 0xff % 2 ^ 4 := by decide

theorem witness_NoFlagRegisterVariant :
    (driving flaglessConfig 0x0 []).cfg.hasFlags = false ∧ Instr.fwflags 0xF ≠ .frflags := by decide

theorem witness_OnlyFrflagsReadsFlags :
    Instr.fwflags 0xF ≠ .frflags ∧ (driving Config.default 0x0 []).cfg = (driving Config.default 0xF []).cfg := by decide

/-- Three cycles that neither reset nor present FWFLAGS, the last one past the end of the host's list. -/
theorem witness_FlagsAreUnionOverRun :
    (driving Config.default 0x8 [InCycle.command ⟨0x80, 0, 1⟩, InCycle.idle]).cfg.wf = true ∧
    ∀ p ∈ (driving Config.default 0x8 [InCycle.command ⟨0x80, 0, 1⟩, InCycle.idle]).cycles 3, p.keepsFlags := by
  unfold InCycle.keepsFlags; decide

/-- A reset cycle, though it presents an FWFLAGS, and then a command. -/
theorem witness_FlagsAreUnionOverRun_reset :
    (driving Config.default 0x8 [⟨true, true, ⟨0xC1, 5, 0⟩⟩, InCycle.command ⟨0x80, 0, 1⟩]).ports.rst = true ∧
    ∀ p ∈ ((driving Config.default 0x8 [⟨true, true, ⟨0xC1, 5, 0⟩⟩, InCycle.command ⟨0x80, 0, 1⟩]).cycles 2).tail,
      p.keepsFlags := by
  unfold InCycle.keepsFlags; decide

/-- An FWFLAGS of a value with a bit above the four, and then a command. -/
theorem witness_FlagsAreUnionOverRun_write :
    (driving Config.default 0x8 [InCycle.command ⟨0xC1, 0x15, 0⟩, InCycle.command ⟨0x80, 0, 1⟩]).ports.rst = false ∧
    (driving Config.default 0x8 [InCycle.command ⟨0xC1, 0x15, 0⟩, InCycle.command ⟨0x80, 0, 1⟩]).ports.cmdValid = true ∧
    (driving Config.default 0x8 [InCycle.command ⟨0xC1, 0x15, 0⟩, InCycle.command ⟨0x80, 0, 1⟩]).ports.beat.cmd = 0xC1 ∧
    ∀ p ∈ ((driving Config.default 0x8
      [InCycle.command ⟨0xC1, 0x15, 0⟩, InCycle.command ⟨0x80, 0, 1⟩]).cycles 2).tail, p.keepsFlags := by
  unfold InCycle.keepsFlags; decide

theorem witness_FlagsAfterEveryCycle : ∃ t, step (presenting Config.default 0xC1 0x15 0) = .next t := ⟨_, rfl⟩

end Sys2Proof.Tests
end

section
/-! PROOFS. The scope statements of 00_scope.md: a step is total on the configurations R9 allows (O4), it is refused on
exactly the others (O5), and the widths of the two documented configurations (O18). -/

namespace Sys2Proof.Machine

/-- 00_scope.md R8: the command, the illegal word, reset and the idle cycle all answer, each from `s.advance`. -/
theorem step_next {s : State} (hc : s.cfg.wf = true) :
    ∃ t, step s = .next t ∧ t.cfg = s.cfg ∧ t.inputs = s.inputs.tail := by
  rcases step_cases hc with ⟨-, h⟩ | ⟨-, -, i, -, h⟩ | ⟨-, -, e, -, h⟩ | ⟨-, -, h⟩
  · exact ⟨_, h, by simp, by simp⟩
  · obtain ⟨t, hexec, hinputs, hcfg, -⟩ := exec_next i s.advance
    exact ⟨t, h.trans hexec, by simp [hcfg], by simp [hinputs]⟩
  · exact ⟨_, h, by simp, by simp⟩
  · exact ⟨_, h, by simp, by simp⟩

/-- Settles O4, from the four cases of a step. -/
theorem everyCycleCompletes : Obligations.EveryCycleCompletes := by
  unfold Obligations.EveryCycleCompletes
  exact fun _ hc => step_next hc

/-- 93_implementation_defined.md #1: the layout is looked at before anything the host drives. -/
theorem step_of_not_wf {s : State} (hc : ¬ s.cfg.wf = true) : step s = .refused .extLayout := by
  unfold step
  exact if_neg hc

theorem step_eq_refused_iff (s : State) (q : Refusal) :
    step s = .refused q ↔ q = .extLayout ∧ ¬ s.cfg.wf = true := by
  by_cases hc : s.cfg.wf = true
  · obtain ⟨t, h, -⟩ := step_next hc
    simp [h, hc]
  · simp [step_of_not_wf hc, hc, eq_comm]

/-- Settles O5: an allowed layout always answers (O4), and `ExtLayout.wf` is the constraint of R9. -/
theorem onlyBadLayoutIsRefused : Obligations.OnlyBadLayoutIsRefused := by
  unfold Obligations.OnlyBadLayoutIsRefused
  intro s q
  rw [step_eq_refused_iff, Config.wf, ExtLayout.wf_iff]

end Sys2Proof.Machine

namespace Sys2Proof

/-- 00_scope.md R10: an extended format of at least 64 bits sets the width of the buses. -/
theorem busW_eq_width {c : Config} (h : 64 ≤ c.ext.width) : c.busW = c.ext.width := Nat.max_eq_right h

theorem default_width : Config.default.ext.width = 80 := rfl

theorem quad_width : Config.quad.ext.width = 128 := rfl

/-- Settles O18: both extended formats are wider than 64 bits, so `W` is `EXT_W`. -/
theorem documentedWidths : Obligations.DocumentedWidths := by
  unfold Obligations.DocumentedWidths
  have hdefault : Config.default.busW = 80 := busW_eq_width (by simp [default_width])
  have hquad : Config.quad.busW = 128 := busW_eq_width (by simp [quad_width])
  exact ⟨default_width, hdefault, quad_width, hquad⟩

end Sys2Proof
end

section
/-! PROOFS. The flags a NEXTAFTER can raise are the rows of 42_nextafter.md R123, and the answer of NEXTAFTER.X keeps
the widths of the extended layout (R122, R127). -/

namespace Sys2Proof

theorem zero_mem_possibleFlags : (0 : FlagBits) ∈ Machine.possibleFlags := by decide

theorem nanFlags_mem_possibleFlags (nv : Bool) : nanFlags nv ∈ Machine.possibleFlags := by
  cases nv <;> decide

theorem zeroSourceFlags_mem_possibleFlags : zeroSourceFlags ∈ Machine.possibleFlags := by decide

theorem overflowFlags_mem_possibleFlags : overflowFlags ∈ Machine.possibleFlags := by decide

theorem underflowFlags_mem_possibleFlags (c : Config) (nz : Bool) : underflowFlags c nz ∈ Machine.possibleFlags := by
  unfold underflowFlags
  split <;> decide

theorem shownFlags_mem_possibleFlags (c : Config) {f : FlagBits} (h : f ∈ Machine.possibleFlags) :
    shownFlags c f ∈ Machine.possibleFlags := by
  unfold shownFlags
  split
  · exact h
  · exact zero_mem_possibleFlags

/-- 42_nextafter.md R123: the three NEXTAFTER commands share one cascade of endings, whose flags are each a row of the
table; `r₁` to `r₇` are the results by the number of the ending step. -/
theorem flags_of_ending_possible {α : Type} {nan equal zero overflow underflow : Prop} [Decidable nan]
    [Decidable equal] [Decidable zero] [Decidable overflow] [Decidable underflow] (c : Config) (nv nz : Bool)
    (r₁ r₂ r₃ r₅ r₆ r₇ : α) :
    (if nan then (r₁, nanFlags nv) else if equal then (r₂, 0) else if zero then (r₃, zeroSourceFlags)
      else if overflow then (r₅, overflowFlags) else if underflow then (r₆, underflowFlags c nz) else (r₇, 0)).2
      ∈ Machine.possibleFlags := by
  split_ifs
  · exact nanFlags_mem_possibleFlags nv
  · exact zero_mem_possibleFlags
  · exact zeroSourceFlags_mem_possibleFlags
  · exact overflowFlags_mem_possibleFlags
  · exact underflowFlags_mem_possibleFlags c nz
  · exact zero_mem_possibleFlags

theorem nextAfterS_flags_possible (c : Config) (x y : Word) : (nextAfterS c x y).2 ∈ Machine.possibleFlags :=
  flags_of_ending_possible ..

theorem nextAfterD_flags_possible (c : Config) (x y : DWord) : (nextAfterD c x y).2 ∈ Machine.possibleFlags :=
  flags_of_ending_possible ..

theorem nextAfterX_flags_possible (c : Config) (x y : Pattern) : (nextAfterX c x y).2 ∈ Machine.possibleFlags :=
  flags_of_ending_possible ..

theorem ExtLayout.join_lt (x : ExtLayout) (s : Bool) {e h l : Nat} (he : e < 2 ^ x.expW) (hh : h < 2 ^ x.manhW)
    (hl : l < 2 ^ x.manlW) : x.join s e h l < 2 ^ x.width :=
  cat_lt (cat_lt (cat_lt s.toNat_lt he) hh) hl

/-- Three fields of the widths of the layout. -/
structure ExtFields.Fit (x : ExtLayout) (v : ExtFields) : Prop where
  e_lt : v.e < 2 ^ x.expW
  fh_lt : v.fh < 2 ^ x.manhW
  ml_lt : v.ml < 2 ^ x.manlW

theorem ExtLayout.fields_fit (x : ExtLayout) (v : Pattern) : (x.fields v).Fit x :=
  ⟨field_lt _ _ _, lt_of_le_of_lt Nat.and_le_left (field_lt _ _ _), field_lt _ _ _⟩

theorem ExtLayout.fracHighW_le (x : ExtLayout) : x.fracHighW ≤ x.manhW := by
  unfold fracHighW
  split <;> omega

theorem ExtLayout.mod_fracHigh_lt (x : ExtLayout) (n : Nat) : n % 2 ^ x.fracHighW < 2 ^ x.manhW :=
  lt_of_lt_of_le (Nat.mod_lt _ (Nat.two_pow_pos _)) (Nat.pow_le_pow_right Nat.two_pos x.fracHighW_le)

theorem ExtLayout.stepDown_fit {x : ExtLayout} {v : ExtFields} (hv : v.Fit x) : (x.stepDown v).Fit x := by
  obtain ⟨he, hf, hm⟩ := hv
  have hml (n : Nat) : n % 2 ^ x.manlW < 2 ^ x.manlW := Nat.mod_lt _ (Nat.two_pow_pos _)
  simp only [stepDown]
  split
  · refine ⟨?_, x.mod_fracHigh_lt _, hml _⟩
    simp only
    split <;> omega
  · exact ⟨he, hf, hml _⟩

/-- No carry reaches a full exponent field, which has no low mantissa bit set below it (42_nextafter.md R117). -/
theorem ExtLayout.stepUp_fit {x : ExtLayout} {v : ExtFields} (hv : v.Fit x) (hw : 1 ≤ x.manlW)
    (hmax : v.e = mask x.expW → v.ml = 0) : (x.stepUp v).Fit x := by
  obtain ⟨he, hf, hm⟩ := hv
  have hml : (v.ml + 1) % 2 ^ x.manlW < 2 ^ x.manlW := Nat.mod_lt _ (Nat.two_pow_pos _)
  simp only [stepUp]
  split
  case isTrue hcarry =>
    refine ⟨?_, x.mod_fracHigh_lt _, hml⟩
    have htwo : 2 ^ 1 ≤ 2 ^ x.manlW := Nat.pow_le_pow_right Nat.two_pos hw
    have hne : v.e ≠ mask x.expW := fun h => by
      rw [hmax h, Nat.mod_eq_of_lt (by omega)] at hcarry
      omega
    simp only [mask] at hne ⊢
    split <;> omega
  case isFalse => exact ⟨he, hf, hml⟩

theorem ExtLayout.nbit_lt {x : ExtLayout} (hx : x.wf = true) : x.nbit < 2 ^ x.manhW := by
  obtain ⟨-, hh, -, hn⟩ := x.wf_iff.1 hx
  rcases hn with hn | hn
  · rw [hn]; exact Nat.two_pow_pos _
  · rw [hn]; exact Nat.pow_lt_pow_right Nat.one_lt_two (by omega)

/-- A number with a full exponent field is an infinity: no bit of the low mantissa word is set. -/
theorem ExtLayout.manl_eq_zero {x : ExtLayout} {v : Pattern} (hn : x.isNan v = false) (he : x.exp v = mask x.expW) :
    x.manl v = 0 := by
  simp only [isNan, he, decide_true, Bool.true_and, decide_eq_false_iff_not, not_not, Nat.or_eq_zero_iff] at hn
  exact hn.2

theorem extended_width (x : ExtLayout) : (Fmt.extended x).width = x.width := by
  simp only [Fmt.width, Fmt.extended, ExtLayout.trailW, ExtLayout.width]
  omega

/-- Step 4 of NEXTAFTER.X keeps the widths of the fields, in either direction. -/
theorem ExtLayout.step_fields_fit {x : ExtLayout} (hx : x.wf = true) {v : Pattern} (hn : x.isNan v = false) (b : Bool) :
    (if b then x.stepUp (x.fields v) else x.stepDown (x.fields v)).Fit x := by
  obtain ⟨-, -, hl, -⟩ := x.wf_iff.1 hx
  cases b with
  | true => exact stepUp_fit (x.fields_fit v) hl (manl_eq_zero hn)
  | false => exact stepDown_fit (x.fields_fit v)

theorem ExtLayout.or_lead_lt {x : ExtLayout} (hx : x.wf = true) {fh : Nat} (hf : fh < 2 ^ x.manhW) (p : Prop)
    [Decidable p] : fh ||| (if p then x.nbit else 0) < 2 ^ x.manhW := by
  refine Nat.or_lt_two_pow hf ?_
  split
  · exact nbit_lt hx
  · exact Nat.two_pow_pos _

/-- 42_nextafter.md R122, R127: wherever NEXTAFTER.X ends, its answer is a pattern of the extended format. -/
theorem nextAfterX_lt {c : Config} (hc : c.wf = true) {x y : Pattern} (hx : x < 2 ^ c.ext.width)
    (hy : y < 2 ^ c.ext.width) : (nextAfterX c x y).1 < 2 ^ c.ext.width := by
  simp only [nextAfterX]
  split
  case isTrue =>
    have hnan := nanAdd_lt hc .X (x := x) (y := y)
    rw [Config.fmt, extended_width] at hnan
    exact hnan hx hy
  case isFalse hnan =>
    rw [Bool.or_eq_true, not_or, Bool.not_eq_true] at hnan
    obtain ⟨-, -, hml, -⟩ := c.ext.wf_iff.1 hc
    have hfit := ExtLayout.step_fields_fit hc hnan.1
    generalize hv : (if stepsOutward _ _ _ = true then _ else _ : ExtFields) = v
    obtain ⟨he, hfh, hl⟩ : v.Fit c.ext := hv ▸ hfit _
    have hr : c.ext.join (c.ext.sign x) v.e (v.fh ||| (if v.e ≠ 0 then c.ext.nbit else 0)) v.ml < 2 ^ c.ext.width :=
      c.ext.join_lt _ he (ExtLayout.or_lead_lt hc hfh _) hl
    generalize c.ext.join (c.ext.sign x) v.e _ v.ml = r at hr ⊢
    split_ifs
    · exact hy
    · exact c.ext.join_lt _ (Nat.two_pow_pos _) (Nat.two_pow_pos _) (Nat.one_lt_two_pow (by omega))
    · exact c.ext.join_lt _ (mask_lt _) (ExtLayout.nbit_lt hc) (Nat.two_pow_pos _)
    · exact hr
    · exact hr

end Sys2Proof
end

section
/-! PROOFS. The invariant of the ports and FFLAGS: what every command may put on `res` and `flags`, that each kind of
cycle keeps the invariant (O6), and that reset begins with it (O7). -/

namespace Sys2Proof.Machine

theorem bit_fits_bus (c : Config) (b : Bool) : b.toNat < 2 ^ c.busW :=
  fits_bus b.toNat_lt ((by norm_num : 1 ≤ 64).trans (dword_le_busW c))

theorem ext_value_fits_bus {c : Config} {v len : Nat} (h : v < 2 ^ len) (hl : len ≤ c.ext.width) : v < 2 ^ c.busW :=
  fits_bus h (hl.trans (width_le_busW c))

theorem fits_and_iff {v w m n : Nat} : (fits v m && fits w n) = true ↔ v < 2 ^ m ∧ w < 2 ^ n := by
  rw [Bool.and_eq_true, fits_iff, fits_iff]

/-- 30_encoding.md R61, 42_nextafter.md R123: a well-formed command answers a result of `W` bits and raises a vector of
possibleFlags; FWFLAGS overwrites the register. -/
theorem exec_fits_and_flags {i : Instr} {s : State} (hc : s.cfg.wf = true) (hi : i.wf s.cfg = true) :
    (∃ r f, exec i s = .next (s.respond r f) ∧ r < 2 ^ s.cfg.busW ∧ f ∈ possibleFlags) ∨
    (∃ v, exec i s = .next (s.respondWriteFlags v)) := by
  have ext {v len : Nat} := ext_value_fits_bus (c := s.cfg) (v := v) (len := len)
  obtain ⟨hsign, -, hmanh, hmanl, hexp⟩ := s.cfg.ext.parts_le_width
  cases i with
  | fwflags v => exact .inr ⟨v, rfl⟩
  | extractX a => exact .inl ⟨_, _, rfl, ext (fits_iff.1 hi) le_rfl, zero_mem_possibleFlags⟩
  | insertX se m =>
    obtain ⟨hse, hm⟩ := fits_and_iff.1 hi
    refine .inl ⟨_, _, rfl, ext (cat_lt hse hm) ?_, zero_mem_possibleFlags⟩
    simp only [ExtLayout.width, ExtLayout.trailW]
    omega
  | getmanhX a => exact .inl ⟨_, _, rfl, ext (field_lt _ _ _) hmanh, zero_mem_possibleFlags⟩
  | getmanlX a => exact .inl ⟨_, _, rfl, ext (field_lt _ _ _) hmanl, zero_mem_possibleFlags⟩
  | setmanhX a w =>
    obtain ⟨-, hw⟩ := fits_and_iff.1 hi
    exact .inl ⟨_, _, rfl, ext (ExtLayout.join_lt _ _ (field_lt _ _ _) hw (field_lt _ _ _)) le_rfl,
      zero_mem_possibleFlags⟩
  | setmanlX a w =>
    obtain ⟨-, hw⟩ := fits_and_iff.1 hi
    exact .inl ⟨_, _, rfl, ext (ExtLayout.join_lt _ _ (field_lt _ _ _) (field_lt _ _ _) hw) le_rfl,
      zero_mem_possibleFlags⟩
  | getexpX a => exact .inl ⟨_, _, rfl, ext (field_lt _ _ _) hexp, zero_mem_possibleFlags⟩
  | setexpX a w =>
    obtain ⟨-, hw⟩ := fits_and_iff.1 hi
    exact .inl ⟨_, _, rfl, ext (ExtLayout.join_lt _ _ hw (field_lt _ _ _) (field_lt _ _ _)) le_rfl,
      zero_mem_possibleFlags⟩
  | signbitS | signbitD | signbitX => exact .inl ⟨_, _, rfl, bit_fits_bus _ _, zero_mem_possibleFlags⟩
  | copysignX x y =>
    refine .inl ⟨_, _, rfl, ext (cat_lt (n := 1) (Bool.toNat_lt _) (field_lt _ _ _)) ?_, zero_mem_possibleFlags⟩
    omega
  | nextafterS x y => exact .inl ⟨_, _, rfl, word_fits_bus _ (by norm_num) _, nextAfterS_flags_possible _ _ _⟩
  | nextafterD x y => exact .inl ⟨_, _, rfl, word_fits_bus _ le_rfl _, nextAfterD_flags_possible _ _ _⟩
  | nextafterX x y =>
    obtain ⟨hx, hy⟩ := fits_and_iff.1 hi
    exact .inl ⟨_, _, rfl, ext (nextAfterX_lt hc hx hy) le_rfl, nextAfterX_flags_possible _ _ _⟩
  | _ => exact .inl ⟨_, _, rfl, word_fits_bus _ (by norm_num) _, zero_mem_possibleFlags⟩

/-- Output ports that show no flag have nothing to record in FFLAGS. -/
theorem OutputsOk.of_flags_zero {c : Config} {ff : FlagBits} {o : Outputs} (hres : o.res < 2 ^ c.busW)
    (hflags : o.flags = 0) (hunanswered : o.rspValid = false → o.err = false) (herr : o.err = true → o.res = 0) :
    OutputsOk c ff o where
  res_fits := hres
  flags_possible := by rw [hflags]; exact zero_mem_possibleFlags
  flags_recorded := by rw [hflags]; exact BitVec.zero_or
  unanswered_quiet h := ⟨hunanswered h, hflags⟩
  err_quiet h := ⟨herr h, hflags⟩

theorem outputsOk_unanswered (s : State) (ff : FlagBits) : OutputsOk s.cfg ff s.unanswered :=
  .of_flags_zero (Nat.mod_lt _ (Nat.two_pow_pos _)) rfl (fun _ => rfl) nofun

section Cycles
variable {s : State}

theorem inv_advance (h : Inv s) : Inv s.advance := ⟨h.cfg_wf, h.no_flags, h.out_ok⟩

theorem inv_idleCycle (h : Inv s) : Inv s.idleCycle := ⟨h.cfg_wf, h.no_flags, outputsOk_unanswered s _⟩

theorem inv_resetCycle (h : Inv s) : Inv s.resetCycle := ⟨h.cfg_wf, fun _ => rfl, outputsOk_unanswered s _⟩

theorem inv_respondIllegal (h : Inv s) : Inv s.respondIllegal :=
  ⟨h.cfg_wf, h.no_flags, .of_flags_zero (Nat.two_pow_pos _) rfl nofun (fun _ => rfl)⟩

theorem inv_respondWriteFlags (h : Inv s) (v : FlagBits) : Inv (s.respondWriteFlags v) where
  cfg_wf := h.cfg_wf
  no_flags hf := by
    rw [State.respondWriteFlags_cfg] at hf
    simp [overwriteFlags, hf, h.no_flags hf]
  out_ok := .of_flags_zero (Nat.two_pow_pos _) rfl nofun nofun

theorem inv_respond (h : Inv s) {r : Pattern} {f : FlagBits} (hr : r < 2 ^ s.cfg.busW) (hf : f ∈ possibleFlags) :
    Inv (s.respond r f) where
  cfg_wf := h.cfg_wf
  no_flags hb := by
    rw [State.respond_cfg] at hb
    simp [accumulateFlags, hb, h.no_flags hb]
  out_ok :=
    { res_fits := hr
      flags_possible := shownFlags_mem_possibleFlags _ hf
      flags_recorded := by
        simp only [State.respond_out, State.respond_cfg, State.respond_fflags, shown_accumulate]
        rw [BitVec.or_comm, BitVec.or_assoc, BitVec.or_self]
      unanswered_quiet := nofun
      err_quiet := nofun }

theorem inv_exec {i : Instr} {t : State} (h : Inv s) (hi : i.wf s.cfg = true) (ht : exec i s = .next t) : Inv t := by
  rcases exec_fits_and_flags h.cfg_wf hi with ⟨r, f, he, hr, hf⟩ | ⟨v, he⟩
  · cases he.symm.trans ht
    exact inv_respond h hr hf
  · cases he.symm.trans ht
    exact inv_respondWriteFlags h v

end Cycles

/-- Settles O6: whatever a step does (`step_cases`), the cycle it makes keeps the invariant. -/
theorem stepKeepsInvariant : Obligations.StepKeepsInvariant := by
  unfold Obligations.StepKeepsInvariant
  intro s t h ht
  have ha := inv_advance h
  rcases step_cases h.cfg_wf with ⟨-, he⟩ | ⟨-, -, i, hd, he⟩ | ⟨-, -, e, -, he⟩ | ⟨-, -, he⟩
  · cases he.symm.trans ht
    exact inv_resetCycle ha
  · exact inv_exec ha (decode_wf hd) (he.symm.trans ht)
  · cases he.symm.trans ht
    exact inv_respondIllegal ha
  · cases he.symm.trans ht
    exact inv_idleCycle ha

/-- Settles O7: the reset state answers nothing and holds no flag. -/
theorem resetHasInvariant : Obligations.ResetHasInvariant := by
  unfold Obligations.ResetHasInvariant
  exact ⟨rfl, nofun, .of_flags_zero (Nat.mod_lt _ (Nat.two_pow_pos _)) rfl (fun _ => rfl) nofun⟩

end Sys2Proof.Machine
end

section
/-! PROOFS. A beat decodes to a command of its own command word (30_encoding.md R59, R67). -/

namespace Sys2Proof

theorem cmd_eq_ofNat_fields (w : BitVec 8) :
    w = BitVec.ofNat 8 (cmdGroup w * 64 + cmdFormat w * 16 + cmdFunction w) := by
  have hw := w.isLt
  apply BitVec.eq_of_toNat_eq
  simp [cmdGroup, cmdFormat, cmdFunction, Nat.shiftRight_eq_div_pow]
  omega

theorem decodeAcc_cmd {x : ExtLayout} {fmt fn : Nat} {a b : Pattern} {i : Instr}
    (h : decodeAcc x fmt fn a b = .ok i) : i.cmd = BitVec.ofNat 8 (0 * 64 + fmt * 16 + fn) := by
  unfold decodeAcc at h
  split at h <;> cases h <;> rfl

theorem decodeSgn_cmd {x : ExtLayout} {fmt fn : Nat} {a b : Pattern} {i : Instr}
    (h : decodeSgn x fmt fn a b = .ok i) : i.cmd = BitVec.ofNat 8 (1 * 64 + fmt * 16 + fn) := by
  unfold decodeSgn at h
  split at h <;> cases h <;> rfl

theorem decodeAdj_cmd {x : ExtLayout} {fmt fn : Nat} {a b : Pattern} {i : Instr}
    (h : decodeAdj x fmt fn a b = .ok i) : i.cmd = BitVec.ofNat 8 (2 * 64 + fmt * 16 + fn) := by
  unfold decodeAdj at h
  split at h <;> cases h <;> rfl

theorem decodeSys_cmd {fmt fn : Nat} {a : Pattern} {i : Instr}
    (h : decodeSys fmt fn a = .ok i) : i.cmd = BitVec.ofNat 8 (3 * 64 + fmt * 16 + fn) := by
  unfold decodeSys at h
  split at h <;> cases h <;> rfl

theorem cmdGroup_lt (w : BitVec 8) : cmdGroup w < 4 := (w.extractLsb' 6 2).isLt

/-- A beat decodes to a command of its own word (30_encoding.md R59, R67). -/
theorem decode_cmd {c : Config} {b : Beat} {i : Instr} (h : decode c b = .ok i) : i.cmd = b.cmd := by
  have hg := cmdGroup_lt b.cmd
  rw [cmd_eq_ofNat_fields b.cmd]
  unfold decode at h
  generalize cmdGroup b.cmd = g at h hg ⊢
  interval_cases g
  · exact decodeAcc_cmd h
  · exact decodeSgn_cmd h
  · exact decodeAdj_cmd h
  · exact decodeSys_cmd h

end Sys2Proof
end

section
/-! PROOFS. The kinds of cycle as equations of step: an idle cycle (O2), a command (O3), a reset. -/

namespace Sys2Proof.Machine

theorem step_of_rst {s : State} (hc : s.cfg.wf = true) (hr : s.ports.rst = true) :
    step s = .next s.advance.resetCycle := by
  simp [step, hc, hr]

theorem step_of_command {s : State} {i : Instr} (hc : s.cfg.wf = true) (hr : s.ports.rst = false)
    (hv : s.ports.cmdValid = true) (hd : decode s.cfg s.ports.beat = .ok i) : step s = exec i s.advance := by
  simp [step, hc, hr, hv, hd]

theorem step_of_idle {s : State} (hc : s.cfg.wf = true) (hr : s.ports.rst = false) (hv : s.ports.cmdValid = false) :
    step s = .next s.advance.idleCycle := by
  simp [step, hc, hr, hv]

/-- Settles O2: `idleCycle` is the state the statement writes out. -/
theorem idleCycleHoldsFlags : Obligations.IdleCycleHoldsFlags := by
  unfold Obligations.IdleCycleHoldsFlags
  intro s hc hr hv
  exact ⟨_, _, step_of_idle hc hr hv⟩

/-- Settles O3: the beat at the head of the host's list is the one decoded. -/
theorem stepRunsDecodedCommand : Obligations.StepRunsDecodedCommand := by
  unfold Obligations.StepRunsDecodedCommand
  intro s b rest i hc hd
  exact step_of_command hc rfl rfl hd

theorem wf_of_step_next {s t : State} (h : step s = .next t) : s.cfg.wf = true := by
  by_contra hc
  cases (step_of_not_wf hc).symm.trans h

theorem step_cfg {s t : State} (h : step s = .next t) : t.cfg = s.cfg := by
  obtain ⟨t', h', hcfg, -⟩ := step_next (wf_of_step_next h)
  cases h'.symm.trans h
  exact hcfg

end Sys2Proof.Machine
end

section
/-! PROOFS. What a cycle makes of FFLAGS: a command accumulates the flags it raises (O49), and every cycle leaves the
port at flagsAfterCycle (O54). -/

namespace Sys2Proof

theorem accumulateFlags_eq_or (c : Config) (old f : FlagBits) : accumulateFlags c old f = old ||| shownFlags c f := by
  unfold accumulateFlags shownFlags
  split
  · rfl
  · exact BitVec.or_zero.symm

end Sys2Proof

namespace Sys2Proof.Machine

/-- 10_state.md R24: only the NEXTAFTER commands raise a flag. -/
theorem exec_flags_eq_zero {i : Instr} {s t : State} (hS : i.cmd ≠ 0x80) (hD : i.cmd ≠ 0x90) (hX : i.cmd ≠ 0xA0)
    (h : exec i s = .next t) : t.out.flags = 0 := by
  cases i with
  | nextafterS => exact absurd rfl hS
  | nextafterD => exact absurd rfl hD
  | nextafterX => exact absurd rfl hX
  | fwflags => cases h; rfl
  | _ => cases h; exact shownFlags_zero _

/-- 10_state.md R24: every command but FWFLAGS or-s the flags it raised into FFLAGS. -/
theorem exec_accumulates {i : Instr} {s t : State} (hi : i.cmd ≠ 0xC1) (h : exec i s = .next t) :
    ∃ f, t.fflags = accumulateFlags s.cfg s.fflags f ∧ t.out.flags = shownFlags s.cfg f := by
  rcases exec_cases i s with ⟨r, f, he⟩ | ⟨v, rfl, -⟩
  · cases he.symm.trans h
    exact ⟨f, rfl, rfl⟩
  · exact absurd rfl hi

/-- Every cycle but a reset and an FWFLAGS accumulates: a command what it raised, an illegal word and an idle cycle
nothing. -/
theorem step_accumulates {s t : State} (h : step s = .next t) (hk : s.ports.keepsFlags) :
    ∃ f, t.fflags = accumulateFlags s.cfg s.fflags f ∧ t.out.flags = shownFlags s.cfg f := by
  obtain ⟨hr, hcmd⟩ := hk
  rcases step_cases (wf_of_step_next h) with ⟨hr', -⟩ | ⟨-, hv, i, hd, he⟩ | ⟨-, -, e, -, he⟩ | ⟨-, -, he⟩
  · exact absurd (hr.symm.trans hr') Bool.false_ne_true
  · exact exec_accumulates (s := s.advance) (decode_cmd hd ▸ hcmd hv) (he.symm.trans h)
  · cases he.symm.trans h
    exact ⟨0, (accumulateFlags_zero _ _).symm, (shownFlags_zero _).symm⟩
  · cases he.symm.trans h
    exact ⟨0, (accumulateFlags_zero _ _).symm, (shownFlags_zero _).symm⟩

/-- Settles O49: accumulation is a bitwise or, which clears no bit. -/
theorem flagsAccumulate : Obligations.FlagsAccumulate := by
  unfold Obligations.FlagsAccumulate
  refine ⟨fun i s hf => ?_, fun s t h hr hcmd => ?_⟩
  · obtain ⟨t, h, -⟩ := exec_next i s
    refine ⟨t, h, fun hi => ?_, fun hS hD hX => exec_flags_eq_zero hS hD hX h⟩
    obtain ⟨f, hff, hflags⟩ := exec_accumulates hi h
    rw [hff, hflags, accumulateFlags_eq_or]
  · obtain ⟨f, hff, -⟩ := step_accumulates h ⟨hr, hcmd⟩
    rw [hff, accumulateFlags_eq_or, ← BitVec.or_assoc, BitVec.or_self]

theorem step_fflagsPort_of_rst {s t : State} (h : step s = .next t) (hr : s.ports.rst = true) : t.fflagsPort = 0 := by
  cases (step_of_rst (wf_of_step_next h) hr).symm.trans h
  exact shownFlags_zero _

theorem step_fflagsPort_of_fwflags {s t : State} (h : step s = .next t) (hr : s.ports.rst = false)
    (hv : s.ports.cmdValid = true) (hcmd : s.ports.beat.cmd = 0xC1) :
    t.fflagsPort = shownFlags s.cfg (BitVec.ofNat 4 s.ports.beat.opA) := by
  have he := step_of_command (wf_of_step_next h) hr hv (decode_of_cmd_fwflags hcmd)
  cases he.symm.trans h
  exact shown_overwrite _ _ _

theorem step_fflagsPort_of_keepsFlags {s t : State} (h : step s = .next t) (hk : s.ports.keepsFlags) :
    t.fflagsPort = s.fflagsPort ||| t.out.flags := by
  obtain ⟨f, hff, hflags⟩ := step_accumulates h hk
  rw [State.fflagsPort, step_cfg h, hff, hflags, shown_accumulate, State.fflagsPort]

/-- Settles O54, along the three branches of `flagsAfterCycle`. -/
theorem flagsAfterEveryCycle : Obligations.FlagsAfterEveryCycle := by
  unfold Obligations.FlagsAfterEveryCycle
  intro s t h
  cases hr : s.ports.rst with
  | true => rw [step_fflagsPort_of_rst h hr, flagsAfterCycle, if_pos hr]
  | false =>
    by_cases hw : s.ports.cmdValid = true ∧ s.ports.beat.cmd = 0xC1
    · obtain ⟨hv, hcmd⟩ := hw
      rw [step_fflagsPort_of_fwflags h hr hv hcmd, flagsAfterCycle, hr, if_neg Bool.false_ne_true, if_pos ⟨hv, hcmd⟩,
        shownFlags]
    · have hk : s.ports.keepsFlags := ⟨hr, fun hv hcmd => hw ⟨hv, hcmd⟩⟩
      rw [step_fflagsPort_of_keepsFlags h hk, flagsAfterCycle_keeps hk]

end Sys2Proof.Machine
end

section
/-! PROOFS. What an answer depends on: not on FFLAGS, but for FRFLAGS (O51), and not on whether the build has the flag
register (O50). -/

namespace Sys2Proof.Machine

/-- Every command but FRFLAGS answers alike in two states whose configurations agree but for HAS_FLAGS. -/
theorem exec_agree (i : Instr) {s s' : State} {b : Bool} (h : s'.cfg = { s.cfg with hasFlags := b })
    (hi : i ≠ .frflags) :
    (∃ r f, exec i s = .next (s.respond r f) ∧ exec i s' = .next (s'.respond r f)) ∨
    (∃ v, i = .fwflags v ∧ exec i s = .next (s.respondWriteFlags v) ∧ exec i s' = .next (s'.respondWriteFlags v)) := by
  cases s'
  cases h
  cases i with
  | frflags => exact absurd rfl hi
  | fwflags v => exact .inr ⟨v, rfl, rfl, rfl⟩
  | _ => exact .inl ⟨_, _, rfl, rfl⟩

/-- Settles O51, by `exec_agree` with HAS_FLAGS as it is. -/
theorem onlyFrflagsReadsFlags : Obligations.OnlyFrflagsReadsFlags := by
  unfold Obligations.OnlyFrflagsReadsFlags
  intro i s s' hi hcfg
  rcases exec_agree i (s := s) (s' := s') (b := s.cfg.hasFlags) hcfg hi with ⟨r, f, h, h'⟩ | ⟨v, -, h, h'⟩
  · exact ⟨_, _, h, h', by simp [hcfg]⟩
  · exact ⟨_, _, h, h', rfl⟩

theorem fflagsPort_eq_zero {s : State} (h : s.cfg.hasFlags = false) : s.fflagsPort = 0 := by
  simp [State.fflagsPort, shownFlags, h]

theorem exec_of_no_flags {i : Instr} {s t : State} (hf : s.cfg.hasFlags = false) (h : exec i s = .next t) :
    t.fflagsPort = 0 ∧ t.out.flags = 0 ∧ t.fflags = s.fflags := by
  rcases exec_cases i s with ⟨r, f, he⟩ | ⟨v, -, he⟩
  · cases he.symm.trans h
    exact ⟨fflagsPort_eq_zero hf, by simp [shownFlags, hf], by simp [accumulateFlags, hf]⟩
  · cases he.symm.trans h
    exact ⟨fflagsPort_eq_zero hf, rfl, by simp [overwriteFlags, hf]⟩

theorem exec_frflags_of_no_flags {s t : State} (hf : s.cfg.hasFlags = false) (h : exec .frflags s = .next t) :
    t.out.res = 0 := by
  cases h
  exact congrArg BitVec.toNat (fflagsPort_eq_zero hf)

theorem exec_res_agree {i : Instr} {s s' t t' : State} {b : Bool} (hcfg : s'.cfg = { s.cfg with hasFlags := b })
    (hi : i ≠ .frflags) (h : exec i s = .next t) (h' : exec i s' = .next t') : t.out.res = t'.out.res := by
  rcases exec_agree i hcfg hi with ⟨r, f, he, he'⟩ | ⟨v, -, he, he'⟩
  all_goals
    cases he.symm.trans h
    cases he'.symm.trans h'
    rfl

/-- Settles O50: the flags are masked, and the answers are those of the same build with the register by
`exec_agree`. -/
theorem noFlagRegisterVariant : Obligations.NoFlagRegisterVariant := by
  unfold Obligations.NoFlagRegisterVariant
  intro i s hf
  obtain ⟨t, h, -, -, -, htv, hte⟩ := exec_next i s
  obtain ⟨u, h', -, -, -, huv, hue⟩ := exec_next i { s with cfg := { s.cfg with hasFlags := true } }
  obtain ⟨hport, hflags, hff⟩ := exec_of_no_flags hf h
  refine ⟨t, u, h, h', fflagsPort_eq_zero hf, hport, hflags, hff, htv, huv, hte, hue, ?_, ?_⟩
  · rintro rfl
    exact exec_frflags_of_no_flags hf h
  · exact fun hi => exec_res_agree (b := true) (by rfl) hi h h'

end Sys2Proof.Machine
end

section
/-! PROOFS. The named patterns (O19), and the magnitude and assembly of a format without an explicit leading bit
(O20). -/

namespace Sys2Proof

/-- The sign of an assembled pattern is its top bit. -/
theorem Fmt.asm_true (F : Fmt) (e f : Nat) : F.asm true e f = 2 ^ (F.width - 1) + F.asm false e f := by
  have hw : F.width - 1 = F.expW + F.trailW := by simp only [width]; omega
  rw [hw, Nat.pow_add]
  simp only [asm, cat, Bool.toNat_true, Bool.toNat_false]
  ring

/-- Settles O19: the table by evaluation, the sign 1 column for every format at once. -/
theorem namedPatterns : Obligations.NamedPatterns := by
  unfold Obligations.NamedPatterns
  refine ⟨by decide, by decide, by decide, by decide, fun F _ => ?_⟩
  exact ⟨F.asm_true _ _, F.asm_true _ _, F.asm_true _ _, F.asm_true _ _, F.asm_true _ _, F.asm_true _ _⟩

/-- 10_state.md R31: with no leading bit to mask, exponent field and fraction are neighbouring fields of the pattern. -/
theorem Fmt.mag_of_nb_zero {F : Fmt} (hnb : F.nb = 0) (v : Pattern) : F.mag v = field v 0 (F.trailW + F.expW) := by
  have hfrac : F.frac v = field v 0 F.trailW := by
    rw [frac, trail, hnb, Nat.xor_zero, mask, Nat.and_two_pow_sub_one_eq_mod, Nat.mod_eq_of_lt (field_lt _ _ _)]
  have hfw : F.fracW = F.trailW := if_neg (not_not.2 hnb)
  have h := cat_field_field v 0 F.trailW F.expW
  rw [Nat.zero_add, ← hfrac] at h
  rw [mag, hfw]
  exact h

theorem Fmt.asm_of_nb_zero {F : Fmt} (hnb : F.nb = 0) (s : Bool) (e f : Nat) :
    F.asm s e f = s.toNat * 2 ^ (F.expW + F.trailW) + e * 2 ^ F.trailW + f := by
  rw [asm, hnb, ite_self, Nat.or_zero, Nat.pow_add]
  simp only [cat]
  ring

theorem toNat_and_magMaskD (d : DWord) : (d &&& 0x7fffffffffffffff).toNat = d.toNat % 2 ^ 63 := by
  rw [BitVec.toNat_and]
  exact Nat.and_two_pow_sub_one_eq_mod _ 63

/-- Settles O20: neither binary32 nor binary64 stores a leading bit. -/
theorem plainMagnitudes : Obligations.PlainMagnitudes := by
  unfold Obligations.PlainMagnitudes
  refine ⟨fun v => ?_, fun v => ?_, Fmt.asm_of_nb_zero rfl, Fmt.asm_of_nb_zero rfl⟩
  · rw [Fmt.mag_of_nb_zero rfl, toNat_and_magMask]
    simp [field, Fmt.binary32]
  · rw [Fmt.mag_of_nb_zero rfl, toNat_and_magMaskD]
    simp [field, Fmt.binary64]

end Sys2Proof
end

section
/-! PROOFS. The host's two storage words (O21): R42 is `joinWords` with its halves taken either way round. -/

namespace Sys2Proof

theorem storageOfBus_busOfStorage (o : WordOrder) (w0 w1 : Word) :
    storageOfBus o (busOfStorage o w0 w1) = (w0, w1) := by
  cases o with
  | little => exact Prod.ext (loWord_joinWords w1 w0) (hiWord_joinWords w1 w0)
  | big => exact Prod.ext (hiWord_joinWords w0 w1) (loWord_joinWords w0 w1)

theorem busOfStorage_storageOfBus (o : WordOrder) (d : DWord) :
    busOfStorage o (storageOfBus o d).1 (storageOfBus o d).2 = d := by
  cases o <;> exact joinWords_hi_lo d

/-- Settles O21, from the halves of `joinWords`. -/
theorem hostWordOrderContract : Obligations.HostWordOrderContract := by
  unfold Obligations.HostWordOrderContract
  refine ⟨fun w0 w1 => ?_, fun o w0 w1 d => ?_⟩
  · exact ⟨hiWord_joinWords w1 w0, loWord_joinWords w1 w0, hiWord_joinWords w0 w1, loWord_joinWords w0 w1⟩
  · exact ⟨storageOfBus_busOfStorage o w0 w1, busOfStorage_storageOfBus o d⟩

end Sys2Proof
end

section
/-! PROOFS. A command is a function of the bus bits it consumes (30_encoding.md R60), so neither its decoding nor its
step sees the others (O14). -/

namespace Sys2Proof

/-! Every operand is the low bits of its bus, and of nothing else. -/

theorem wordOperand_eq_low (a : Pattern) :
    wordOperand a = BitVec.ofNatLT (a % 2 ^ 32) (Nat.mod_lt _ (Nat.two_pow_pos _)) := rfl

theorem dwordOperand_eq_low (a : Pattern) :
    dwordOperand a = BitVec.ofNatLT (a % 2 ^ 64) (Nat.mod_lt _ (Nat.two_pow_pos _)) := rfl

theorem flagOperand_eq_low (a : Pattern) :
    flagOperand a = BitVec.ofNatLT (a % 2 ^ 4) (Nat.mod_lt _ (Nat.two_pow_pos _)) := rfl

theorem field_zero (v len : Nat) : field v 0 len = v % 2 ^ len := by rw [field, pow_zero, Nat.div_one]

section Operands
variable {x : ExtLayout} {fmt fn : Nat} {a a' b b' : Pattern} {i : Instr}
  (hA : a' % 2 ^ i.widthA x = a % 2 ^ i.widthA x) (hB : b' % 2 ^ i.widthB x = b % 2 ^ i.widthB x)
include hA

theorem decodeSys_of_consumed_eq (h : decodeSys fmt fn a = .ok i) : decodeSys fmt fn a' = .ok i := by
  unfold decodeSys at h
  split at h <;> cases h
  · rfl
  · simp only [Instr.widthA] at hA
    simp only [decodeSys, flagOperand_eq_low, hA]

include hB

theorem decodeAcc_of_consumed_eq (h : decodeAcc x fmt fn a b = .ok i) : decodeAcc x fmt fn a' b' = .ok i := by
  unfold decodeAcc at h
  split at h <;> cases h
  all_goals
    simp only [Instr.widthA, Instr.widthB] at hA hB
    simp only [decodeAcc, extOperand, signExpOperand, trailOperand, manhOperand, manlOperand, expOperand, field_zero,
      wordOperand_eq_low, dwordOperand_eq_low, hA, hB]

theorem decodeSgn_of_consumed_eq (h : decodeSgn x fmt fn a b = .ok i) : decodeSgn x fmt fn a' b' = .ok i := by
  unfold decodeSgn at h
  split at h <;> cases h
  all_goals
    simp only [Instr.widthA, Instr.widthB] at hA hB
    simp only [decodeSgn, extOperand, field_zero, wordOperand_eq_low, dwordOperand_eq_low, hA, hB]

theorem decodeAdj_of_consumed_eq (h : decodeAdj x fmt fn a b = .ok i) : decodeAdj x fmt fn a' b' = .ok i := by
  unfold decodeAdj at h
  split at h <;> cases h
  all_goals
    simp only [Instr.widthA, Instr.widthB] at hA hB
    simp only [decodeAdj, extOperand, field_zero, wordOperand_eq_low, dwordOperand_eq_low, hA, hB]

end Operands

/-- 20_memory.md R46, 30_encoding.md R60: a command decodes alike from every beat with its word and its consumed
bits. -/
theorem decode_of_consumed_eq {c : Config} {b b' : Beat} {i : Instr} (h : decode c b = .ok i) (hcmd : b'.cmd = b.cmd)
    (hA : b'.opA % 2 ^ i.widthA c.ext = b.opA % 2 ^ i.widthA c.ext)
    (hB : b'.opB % 2 ^ i.widthB c.ext = b.opB % 2 ^ i.widthB c.ext) : decode c b' = .ok i := by
  unfold decode at h ⊢
  rw [hcmd]
  split at h
  · exact decodeAcc_of_consumed_eq hA hB h
  · exact decodeSgn_of_consumed_eq hA hB h
  · exact decodeAdj_of_consumed_eq hA hB h
  · exact decodeSys_of_consumed_eq hA h

end Sys2Proof

namespace Sys2Proof.Machine

/-- Settles O14: both beats decode to the one command, which then runs in the one state behind the beat; where the
layout is refused, so is either step. -/
theorem unconsumedBitsAreIgnored : Obligations.UnconsumedBitsAreIgnored := by
  unfold Obligations.UnconsumedBitsAreIgnored
  intro s b b' rest i hd hcmd hA hB
  by_cases hc : s.cfg.wf = true
  · have hd' := decode_of_consumed_eq hd hcmd hA hB
    exact (stepRunsDecodedCommand s b' rest i hc hd').trans (stepRunsDecodedCommand s b rest i hc hd).symm
  · have hrefused (p : InCycle) : step { s with inputs := p :: rest } = .refused .extLayout := step_of_not_wf hc
    rw [hrefused, hrefused]

end Sys2Proof.Machine
end

section
/-! PROOFS. Every command is idempotent (O52): answering the same again, or writing the same value again, changes
nothing. -/

namespace Sys2Proof

theorem overwrite_idem (c : Config) (old v : FlagBits) :
    overwriteFlags c (overwriteFlags c old v) v = overwriteFlags c old v := by
  unfold overwriteFlags
  split <;> rfl

end Sys2Proof

namespace Sys2Proof.Machine

theorem respond_respond (s : State) (r : Pattern) (f : FlagBits) : (s.respond r f).respond r f = s.respond r f := by
  simp only [State.respond, accumulate_idem]

theorem respondWriteFlags_respondWriteFlags (s : State) (v : FlagBits) :
    (s.respondWriteFlags v).respondWriteFlags v = s.respondWriteFlags v := by
  simp only [State.respondWriteFlags, overwrite_idem]

/-- 43_system.md R140: FRFLAGS leaves the register it reads as it is. -/
theorem exec_frflags_again (s : State) :
    exec .frflags (s.respond s.fflagsPort.toNat 0#4) = .next (s.respond s.fflagsPort.toNat 0#4) := by
  have hport : (s.respond s.fflagsPort.toNat 0#4).fflagsPort = s.fflagsPort := by simp [State.fflagsPort]
  calc exec .frflags (s.respond s.fflagsPort.toNat 0#4)
    _ = .next ((s.respond s.fflagsPort.toNat 0#4).respond
          (s.respond s.fflagsPort.toNat 0#4).fflagsPort.toNat 0#4) := rfl
    _ = .next (s.respond s.fflagsPort.toNat 0#4) := by rw [hport, respond_respond]

/-- Settles O52: FRFLAGS by itself; every other command answers alike in the state it left, since that has the
configuration of the first (`exec_agree`). -/
theorem commandsAreIdempotent : Obligations.CommandsAreIdempotent := by
  unfold Obligations.CommandsAreIdempotent
  intro i s
  by_cases hi : i = .frflags
  · rw [hi]
    exact ⟨_, rfl, exec_frflags_again s⟩
  · obtain ⟨t, ht, -, hcfg, -⟩ := exec_next i s
    refine ⟨t, ht, ?_⟩
    rcases exec_agree i (s' := t) (b := s.cfg.hasFlags) hcfg hi with ⟨r, f, h, h'⟩ | ⟨v, -, h, h'⟩
    · cases h.symm.trans ht
      rw [h', respond_respond]
    · cases h.symm.trans ht
      rw [h', respondWriteFlags_respondWriteFlags]

end Sys2Proof.Machine
end

section
/-! PROOFS. FFLAGS over a run (O53): every run completes, FFLAGS is what its cycles make of it one by one, and over
cycles that only accumulate that is a union. -/

namespace Sys2Proof.Machine

theorem run_succ {s t : State} (h : step s = .next t) (k : Nat) : core.run (k + 1) s = core.run k t := by
  have hcore : core.step s = .next t := h
  simp only [Host.Core.run, hcore]

theorem trace_succ {s t : State} (h : step s = .next t) (k : Nat) : trace (k + 1) s = t.observe :: trace k t := by
  rw [trace, h]

theorem length_cycles (k : Nat) (s : State) : (s.cycles k).length = k := by
  simp [State.cycles]

/-- A run's later cycles are the cycles of the state its first step leaves. -/
theorem cycles_succ_of_step {s t : State} (h : step s = .next t) (k : Nat) :
    s.cycles (k + 1) = s.ports :: t.cycles k := by
  obtain ⟨t', h', -, hinputs⟩ := step_next (wf_of_step_next h)
  cases h'.symm.trans h
  rw [cycles_succ, cycles_congr (s := s.advance) (t := t) hinputs]

/-- What cycles with the inputs `ps` and the observations `os` make, one by one, of a register whose port showed `f`. -/
def flagsAfterCycles (c : Config) (f : FlagBits) (ps : List InCycle) (os : List Observation) : FlagBits :=
  (ps.zip os).foldl (fun f z => flagsAfterCycle c f z.1 z.2.out.flags) f

section Cycles
variable (c : Config) (f : FlagBits)

@[simp] theorem flagsAfterCycles_nil (os : List Observation) : flagsAfterCycles c f [] os = f := rfl

@[simp] theorem flagsAfterCycles_cons (p : InCycle) (ps : List InCycle) (o : Observation) (os : List Observation) :
    flagsAfterCycles c f (p :: ps) (o :: os) = flagsAfterCycles c (flagsAfterCycle c f p o.out.flags) ps os := rfl

theorem flagsAfterCycle_rst {p : InCycle} (hr : p.rst = true) (r : FlagBits) : flagsAfterCycle c f p r = 0 :=
  if_pos hr

theorem flagsAfterCycle_fwflags {p : InCycle} (hr : p.rst = false) (hv : p.cmdValid = true) (hcmd : p.beat.cmd = 0xC1)
    (r : FlagBits) :
    flagsAfterCycle c f p r = if c.hasFlags = true then BitVec.ofNat 4 p.beat.opA else 0 := by
  rw [flagsAfterCycle, if_neg (by simp [hr]), if_pos ⟨hv, hcmd⟩]

end Cycles

/-- 20_memory.md R48: cycles that neither reset nor present FWFLAGS make the union of their flags. -/
theorem flagsAfterCycles_of_keepsFlags (c : Config) {ps : List InCycle} {os : List Observation}
    (hlen : os.length = ps.length) (hk : ∀ p ∈ ps, p.keepsFlags) (f : FlagBits) :
    flagsAfterCycles c f ps os = unionWith f os := by
  induction ps generalizing f os with
  | nil => rw [List.length_eq_zero_iff.1 hlen, flagsAfterCycles_nil, unionWith_nil]
  | cons p ps ih =>
    obtain ⟨hp, hps⟩ := List.forall_mem_cons.1 hk
    obtain ⟨o, os, rfl⟩ := List.exists_cons_of_length_eq_add_one hlen
    rw [flagsAfterCycles_cons, flagsAfterCycle_keeps hp, unionWith_cons]
    exact ih (Nat.succ.inj hlen) hps _

/-- 00_scope.md R8, 20_memory.md R48: a run of an allowed configuration completes with one observation per cycle, and
leaves FFLAGS at what its cycles make of it. -/
theorem run_completes (k : Nat) {s : State} (hc : s.cfg.wf = true) :
    ∃ t, core.run k s = .next t ∧ (trace k s).length = k ∧
      t.fflagsPort = flagsAfterCycles s.cfg s.fflagsPort (s.cycles k) (trace k s) := by
  induction k generalizing s with
  | zero => exact ⟨s, rfl, rfl, rfl⟩
  | succ k ih =>
    obtain ⟨t, hstep, hcfg, -⟩ := step_next hc
    obtain ⟨u, hrun, hlen, hport⟩ := ih (s := t) (hcfg ▸ hc)
    refine ⟨u, (run_succ hstep k).trans hrun, by rw [trace_succ hstep, List.length_cons, hlen], ?_⟩
    rw [trace_succ hstep, cycles_succ_of_step hstep, flagsAfterCycles_cons, hport, hcfg,
      flagsAfterEveryCycle s t hstep, State.observe]

/-- 20_memory.md R48: where only the first cycle may reset or present FWFLAGS, FFLAGS is the union of the later flags
with what the first cycle left. -/
theorem flagsAfterCycles_run_succ {k : Nat} {s : State} (hc : s.cfg.wf = true)
    (hk : ∀ p ∈ (s.cycles (k + 1)).tail, p.keepsFlags) :
    ∃ r, flagsAfterCycles s.cfg s.fflagsPort (s.cycles (k + 1)) (trace (k + 1) s) =
      unionWith (flagsAfterCycle s.cfg s.fflagsPort s.ports r) (trace (k + 1) s).tail := by
  obtain ⟨t, hstep, hcfg, -⟩ := step_next hc
  obtain ⟨-, -, hlen, -⟩ := run_completes k (s := t) (hcfg ▸ hc)
  rw [cycles_succ_of_step hstep] at hk ⊢
  rw [trace_succ hstep, flagsAfterCycles_cons]
  exact ⟨_, flagsAfterCycles_of_keepsFlags _ (hlen.trans (length_cycles k t).symm) hk _⟩

/-- Settles O53: the run completes with the fold over its cycles (`run_completes`), and each case of R48 is what that
fold is when the first cycle resets, writes or accumulates. -/
theorem flagsAreUnionOverRun : Obligations.FlagsAreUnionOverRun := by
  unfold Obligations.FlagsAreUnionOverRun
  intro k s hc
  obtain ⟨t, hrun, hlen, hport⟩ := run_completes k hc
  refine ⟨t, hrun, hlen, hport, fun hpos hk => ?_, fun hk => ?_, _, rfl, rfl⟩
  · obtain ⟨n, rfl⟩ := Nat.exists_eq_add_one.2 hpos
    obtain ⟨r, hfirst⟩ := flagsAfterCycles_run_succ hc hk
    rw [hport, hfirst]
    refine ⟨fun hr => ?_, fun hr hv hcmd => ?_⟩
    · rw [flagsAfterCycle_rst _ _ hr]
    · rw [flagsAfterCycle_fwflags _ _ hr hv hcmd]
  · rw [hport, flagsAfterCycles_of_keepsFlags _ (hlen.trans (length_cycles k s).symm) hk]

end Sys2Proof.Machine
end

section
/-! PROOFS. A beat decodes exactly to the command of its word with every operand the low bits of its bus, so decoding
and encoding are inverse to each other on well-formed commands (O12, O13), and each row of 30_encoding.md R59 and R60
holds (O8, O9, O15). -/

namespace Sys2Proof

/-- The command of the same word whose operands are read from the buses, by the table of 30_encoding.md R60. -/
def Instr.fromBuses (x : ExtLayout) (a b : Pattern) : Instr → Instr
  | .getwS _ => .getwS (wordOperand a)
  | .setwS _ => .setwS (wordOperand a)
  | .extractD _ => .extractD (dwordOperand a)
  | .insertD _ _ => .insertD (wordOperand a) (wordOperand b)
  | .gethiD _ => .gethiD (dwordOperand a)
  | .getloD _ => .getloD (dwordOperand a)
  | .sethiD _ _ => .sethiD (dwordOperand a) (wordOperand b)
  | .setloD _ _ => .setloD (dwordOperand a) (wordOperand b)
  | .extractX _ => .extractX (extOperand x a)
  | .insertX _ _ => .insertX (signExpOperand x a) (trailOperand x b)
  | .getmanhX _ => .getmanhX (extOperand x a)
  | .getmanlX _ => .getmanlX (extOperand x a)
  | .setmanhX _ _ => .setmanhX (extOperand x a) (manhOperand x b)
  | .setmanlX _ _ => .setmanlX (extOperand x a) (manlOperand x b)
  | .getexpX _ => .getexpX (extOperand x a)
  | .setexpX _ _ => .setexpX (extOperand x a) (expOperand x b)
  | .signbitS _ => .signbitS (wordOperand a)
  | .copysignS _ _ => .copysignS (wordOperand a) (wordOperand b)
  | .signbitD _ => .signbitD (dwordOperand a)
  | .copysignD _ _ => .copysignD (dwordOperand a) (dwordOperand b)
  | .signbitX _ => .signbitX (extOperand x a)
  | .copysignX _ _ => .copysignX (extOperand x a) (extOperand x b)
  | .nextafterS _ _ => .nextafterS (wordOperand a) (wordOperand b)
  | .nextafterD _ _ => .nextafterD (dwordOperand a) (dwordOperand b)
  | .nextafterX _ _ => .nextafterX (extOperand x a) (extOperand x b)
  | .frflags => .frflags
  | .fwflags _ => .fwflags (flagOperand a)

section FromBuses
variable (x : ExtLayout) (a b : Pattern) (i : Instr)

theorem opA_fromBuses : (i.fromBuses x a b).opA = a % 2 ^ i.widthA x := by
  cases i with
  | frflags => exact (Nat.mod_one a).symm
  | extractX | insertX | getmanhX | getmanlX | setmanhX | setmanlX | getexpX | setexpX | signbitX | copysignX
  | nextafterX => exact field_zero a _
  | _ => exact BitVec.toNat_ofNat a _

theorem opB_fromBuses : (i.fromBuses x a b).opB = b % 2 ^ i.widthB x := by
  cases i with
  | insertD | sethiD | setloD | copysignS | copysignD | nextafterS | nextafterD => exact BitVec.toNat_ofNat b _
  | insertX | setmanhX | setmanlX | setexpX | copysignX | nextafterX => exact field_zero b _
  | _ => exact (Nat.mod_one b).symm

/-- 30_encoding.md R67: the group, format and function of each word lead to its own arm of the decoder. -/
theorem decode_cmd_fromBuses (c : Config) : decode c ⟨i.cmd, a, b⟩ = .ok (i.fromBuses c.ext a b) := by
  cases i
  all_goals
    simp [Instr.cmd, Instr.fromBuses, decode, cmdGroup, cmdFormat, cmdFunction, decodeAcc, decodeSgn, decodeAdj,
      decodeSys]

end FromBuses

theorem field_zero_of_fits {v len : Nat} (h : fits v len = true) : field v 0 len = v := field_zero_of_lt (fits_iff.1 h)

/-- An operand of the width its command reads is read back as it is; the cases go by the operands' widths. -/
theorem fromBuses_of_wf {c : Config} {i : Instr} (h : i.wf c = true) : i.fromBuses c.ext i.opA i.opB = i := by
  cases i with
  | getwS | setwS | signbitS => exact congrArg _ (wordOperand_toNat _)
  | extractD | gethiD | getloD | signbitD => exact congrArg _ (dwordOperand_toNat _)
  | insertD | copysignS | nextafterS => exact congrArg₂ _ (wordOperand_toNat _) (wordOperand_toNat _)
  | sethiD | setloD => exact congrArg₂ _ (dwordOperand_toNat _) (wordOperand_toNat _)
  | copysignD | nextafterD => exact congrArg₂ _ (dwordOperand_toNat _) (dwordOperand_toNat _)
  | extractX | getmanhX | getmanlX | getexpX | signbitX => exact congrArg _ (field_zero_of_fits h)
  | insertX | setmanhX | setmanlX | setexpX | copysignX | nextafterX =>
    obtain ⟨hA, hB⟩ := Machine.fits_and_iff.1 h
    exact congrArg₂ _ (field_zero_of_lt hA) (field_zero_of_lt hB)
  | frflags => rfl
  | fwflags v => exact congrArg _ (flagOperand_toNat v)

/-- 30_encoding.md R67: which command a beat is depends on `cmd` alone, and its operands on the buses alone. -/
theorem decode_eq_ok_iff {c : Config} {b : Beat} {i : Instr} :
    decode c b = .ok i ↔ i.cmd = b.cmd ∧ i.fromBuses c.ext b.opA b.opB = i := by
  have hrow (hcmd : i.cmd = b.cmd) : decode c b = .ok (i.fromBuses c.ext b.opA b.opB) := by
    rw [← decode_cmd_fromBuses, hcmd]
  constructor
  · intro h
    exact ⟨decode_cmd h, Except.ok.inj ((hrow (decode_cmd h)).symm.trans h)⟩
  · rintro ⟨hcmd, hi⟩
    rw [hrow hcmd, hi]

/-- Settles O12: the beat has the command's word, and its operands are read back as they are. -/
theorem decodeEncode : Obligations.DecodeEncode := by
  unfold Obligations.DecodeEncode
  exact fun _ _ h => decode_eq_ok_iff.2 ⟨rfl, fromBuses_of_wf h⟩

/-- Settles O13: what is read from a bus is its low bits, as many as the command consumes. -/
theorem encodeDecode : Obligations.EncodeDecode := by
  unfold Obligations.EncodeDecode
  intro c b i h
  obtain ⟨hcmd, hi⟩ := decode_eq_ok_iff.1 h
  have hA := opA_fromBuses c.ext b.opA b.opB i
  have hB := opB_fromBuses c.ext b.opA b.opB i
  rw [hi] at hA hB
  exact ⟨decode_wf h, by rw [encode, hcmd, hA, hB]⟩

/-- The table of 30_encoding.md R59 holds the words of the commands and no others. -/
theorem mem_legalCommandWords_iff (w : BitVec 8) : w ∈ Machine.legalCommandWords ↔ ∃ i : Instr, i.cmd = w := by
  constructor
  · have hdecodes : ∀ w ∈ Machine.legalCommandWords, (decode Config.default ⟨w, 0, 0⟩).isOk = true := by decide
    intro hw
    have hok := hdecodes w hw
    cases hd : decode Config.default ⟨w, 0, 0⟩ with
    | ok i => exact ⟨i, decode_cmd hd⟩
    | error e =>
      rw [hd] at hok
      cases hok
  · rintro ⟨i, rfl⟩
    cases i <;> simp [Instr.cmd, Machine.legalCommandWords]

/-- Settles O8: a beat with a command's word decodes to that command, and what a beat decodes to has its word. -/
theorem definedCommandWords : Obligations.DefinedCommandWords := by
  unfold Obligations.DefinedCommandWords
  intro c b
  rw [mem_legalCommandWords_iff]
  constructor
  · rintro ⟨i, h⟩
    exact ⟨i, decode_cmd h⟩
  · rintro ⟨i, hi⟩
    exact ⟨i.fromBuses c.ext b.opA b.opB, by rw [← decode_cmd_fromBuses, hi]⟩

/-- Settles O9: with the operands named as operand assembly names them, each row has the command's word and reads its
buses. -/
theorem commandsReadTheirOperands : Obligations.CommandsReadTheirOperands := by
  unfold Obligations.CommandsReadTheirOperands
  rintro c A B w v d e f hw hv hd he hf _ _ _ _ _ rfl rfl rfl rfl rfl
  have hlow {n : Nat} {u : BitVec n} {a : Nat} (h : u.toNat = a % 2 ^ n) : BitVec.ofNat n a = u :=
    BitVec.eq_of_toNat_eq ((BitVec.toNat_ofNat a n).trans h.symm)
  obtain rfl : wordOperand A = w := hlow hw
  obtain rfl : wordOperand B = v := hlow hv
  obtain rfl : dwordOperand A = d := hlow hd
  obtain rfl : dwordOperand B = e := hlow he
  obtain rfl : flagOperand A = f := hlow hf
  simp only [← field_zero]
  and_intros
  all_goals exact decode_eq_ok_iff.2 ⟨rfl, rfl⟩

/-- Settles O15, by decoding the eight beats. -/
theorem writtenOutWordsDecode : Obligations.WrittenOutWordsDecode := by
  unfold Obligations.WrittenOutWordsDecode
  decide

end Sys2Proof
end

section
/-! PROOFS. The illegal command words (O10): a word has 8 bits, and 30_encoding.md R62 is compared with the table of R59
on each of the 256. -/

namespace Sys2Proof

/-- How many of the `n` command words from `lo` on are illegal. -/
def illegalFrom (lo n : Nat) : Nat :=
  ((List.range' lo n).filter fun w => BitVec.ofNat 8 w ∉ Machine.legalCommandWords).length

theorem illegalFrom_add (lo m n : Nat) : illegalFrom lo (m + n) = illegalFrom lo m + illegalFrom (lo + m) n := by
  simp only [illegalFrom, ← List.range'_append_1, List.filter_append, List.length_append]

/-- 30_encoding.md R59: of the 64 words of a group, 16, 6, 3 and 2 are commands. -/
theorem illegalFrom_groups :
    illegalFrom 0 64 = 64 - 16 ∧ illegalFrom 64 64 = 64 - 6 ∧ illegalFrom 128 64 = 64 - 3 ∧
      illegalFrom 192 64 = 64 - 2 := by decide

/-- Settles O10: the fields word by word, the count group by group. -/
theorem illegalCommandFields : Obligations.IllegalCommandFields := by
  unfold Obligations.IllegalCommandFields
  refine ⟨by decide, ?_⟩
  obtain ⟨hacc, hsgn, hadj, hsys⟩ := illegalFrom_groups
  rw [List.range_eq_range']
  calc illegalFrom 0 (64 + 64 + 64 + 64)
    _ = illegalFrom 0 64 + illegalFrom 64 64 + illegalFrom 128 64 + illegalFrom 192 64 := by
      rw [illegalFrom_add, illegalFrom_add, illegalFrom_add]
    _ = 229 := by rw [hacc, hsgn, hadj, hsys]

end Sys2Proof
end

section
/-! PROOFS. A beat as one number (O16): `{cmd, op_a, op_b}` is two concatenations, each undone by its own field
(30_encoding.md R55). -/

namespace Sys2Proof

section BeatNumber
variable {c : Config} {b : Beat} (hA : b.opA < 2 ^ c.busW) (hB : b.opB < 2 ^ c.busW)

theorem beatNumber_eq (c : Config) (b : Beat) :
    beatNumber c b = b.cmd.toNat * 2 ^ (2 * c.busW) + b.opA * 2 ^ c.busW + b.opB := by
  simp only [beatNumber, cat]
  ring

include hA hB

theorem beatNumber_lt : beatNumber c b < 2 ^ (8 + 2 * c.busW) := by
  rw [two_mul, ← Nat.add_assoc]
  exact cat_lt (cat_lt b.cmd.isLt hA) hB

theorem beatNumber_div : beatNumber c b / 2 ^ (2 * c.busW) = b.cmd.toNat := by
  rw [two_mul, Nat.pow_add, ← Nat.div_div_eq_div_mul, beatNumber, cat_div hB, cat_div hA]

theorem beatOfNumber_beatNumber : beatOfNumber c (beatNumber c b) = b := by
  have hcmd : field (beatNumber c b) (2 * c.busW) 8 = b.cmd.toNat := by
    rw [field, beatNumber_div hA hB, Nat.mod_eq_of_lt b.cmd.isLt]
  have hopA : field (beatNumber c b) c.busW c.busW = b.opA :=
    (field_cat_high hB 0 c.busW).trans (field_cat_low hA)
  have hopB : field (beatNumber c b) 0 c.busW = b.opB := field_cat_low hB
  rw [beatOfNumber, hcmd, hopA, hopB, BitVec.ofNat_toNat, BitVec.setWidth_eq]

end BeatNumber

/-- Settles O16, with the bus widths of O18. -/
theorem beatAsOneNumber : Obligations.BeatAsOneNumber := by
  unfold Obligations.BeatAsOneNumber
  obtain ⟨-, hdefault, -, hquad⟩ := documentedWidths
  refine ⟨fun c b hA hB => ?_, by rw [hdefault], by rw [hquad]⟩
  exact ⟨beatNumber_eq c b, beatNumber_lt hA hB, beatNumber_div hA hB, beatOfNumber_beatNumber hA hB⟩

end Sys2Proof
end

section
/-! PROOFS. The pseudo-instructions (O17): a line assembles to the beat of its row, and a pseudo-instruction's row has
the word and the format of its expansion (30_encoding.md R65, R66). -/

namespace Sys2Proof

/-- 30_encoding.md R65: the beat of a line whose mnemonic has the row `r` and whose second operand is `b` on the bus. -/
theorem assemble_of_find {c : Config} {m : String} {r : AsmRow} {oa ob : Option AsmOperand} {b : Pattern}
    (hr : asmTable.find? (fun r => r.mnemonic == m) = some r)
    (hb : operandOrZero c r (decide (2 ≤ r.operands)) ob = some b) :
    assemble c ⟨m, oa, ob⟩ = (operandOrZero c r (decide (1 ≤ r.operands)) oa).map fun a => ⟨r.cmd, a, b⟩ := by
  simp only [assemble, hr, hb]
  cases operandOrZero c r (decide (1 ≤ r.operands)) oa <;> rfl

section Rows
variable {c : Config} {m m' : String} {cmd : BitVec 8} {fmt : Option FormatId} (a : AsmOperand)

/-- 30_encoding.md R66: a pseudo-instruction of one operand has 0 on `op_b`. -/
theorem assemble_pseudo_one (hr : asmTable.find? (fun r => r.mnemonic == m) = some (asmPseudo m cmd fmt 1)) :
    assemble c ⟨m, some a, none⟩ = (operandValue c fmt a).map fun v => ⟨cmd, v, 0⟩ :=
  assemble_of_find hr rfl

theorem assemble_command_two (hr : asmTable.find? (fun r => r.mnemonic == m) = some (asmCommand m cmd fmt 2))
    (v : Pattern) : assemble c ⟨m, some a, some (.value v)⟩ = (operandValue c fmt a).map fun w => ⟨cmd, w, v⟩ :=
  assemble_of_find hr rfl

/-- 30_encoding.md R66: a pseudo-instruction of the word and format of a command is that command with 0. -/
theorem assemble_pseudo_eq_command (hr : asmTable.find? (fun r => r.mnemonic == m) = some (asmPseudo m cmd fmt 1))
    (hr' : asmTable.find? (fun r => r.mnemonic == m') = some (asmCommand m' cmd fmt 2)) :
    assemble c ⟨m, some a, none⟩ = assemble c ⟨m', some a, some (.value 0x0)⟩ :=
  (assemble_pseudo_one a hr).trans (assemble_command_two a hr' 0x0).symm

end Rows

/-! The rows of asmTable that R66 speaks of. -/

theorem find_fabsS :
    asmTable.find? (fun r => r.mnemonic == "FABS.S") = some (asmPseudo "FABS.S" 0x41 (some .S) 1) := rfl

theorem find_fabsD :
    asmTable.find? (fun r => r.mnemonic == "FABS.D") = some (asmPseudo "FABS.D" 0x51 (some .D) 1) := rfl

theorem find_fabsX :
    asmTable.find? (fun r => r.mnemonic == "FABS.X") = some (asmPseudo "FABS.X" 0x61 (some .X) 1) := rfl

theorem assemble_fcflags (c : Config) : assemble c ⟨"FCFLAGS", none, none⟩ = some ⟨0xC1, 0, 0⟩ :=
  assemble_of_find (r := asmPseudo "FCFLAGS" 0xC1 none 0) rfl rfl

theorem assemble_fwflags (c : Config) (v : Pattern) :
    assemble c ⟨"FWFLAGS", some (.value v), none⟩ = some ⟨0xC1, v, 0⟩ :=
  assemble_of_find (r := asmCommand "FWFLAGS" 0xC1 none 1) rfl rfl

/-- Settles O17: the two rows of each expansion have one word and one format, in which the operand is read. -/
theorem pseudoInstructionsExpand : Obligations.PseudoInstructionsExpand := by
  unfold Obligations.PseudoInstructionsExpand
  intro c a
  refine ⟨(assemble_fcflags c).trans (assemble_fwflags c 0x0).symm, assemble_pseudo_eq_command a find_fabsS rfl,
    assemble_pseudo_eq_command a find_fabsD rfl, assemble_pseudo_eq_command a find_fabsX rfl, assemble_fcflags c,
    fun v => ?_, fun negative p => ?_⟩
  · exact ⟨assemble_pseudo_one (.value v) find_fabsS, assemble_pseudo_one (.value v) find_fabsD,
      assemble_pseudo_one (.value v) find_fabsX⟩
  · exact ⟨assemble_pseudo_one (.named negative p) find_fabsS, assemble_pseudo_one (.named negative p) find_fabsD,
      assemble_pseudo_one (.named negative p) find_fabsX⟩

end Sys2Proof
end

section
/-! PROOFS. The word accessors: each answers a field of its operands, or a concatenation of fields, raises no flag and
changes nothing else (O22 to O25). -/

namespace Sys2Proof

theorem cat_assoc (a n b m c : Nat) : cat (cat a n b) m c = cat a (n + m) (cat b m c) := by
  simp only [cat, Nat.pow_add]
  ring

namespace ExtLayout
variable (x : ExtLayout) (a : Pattern)

/-- 10_state.md R29: the sign is the one bit above the exponent field. -/
theorem toNat_sign : (x.sign a).toNat = field a (x.trailW + x.expW) 1 := by
  have htop : x.width - 1 = x.trailW + x.expW := by
    simp only [width, trailW]
    omega
  rw [sign, htop, Nat.toNat_testBit, field, pow_one]

theorem cat_sign_exp : cat (x.sign a).toNat x.expW (x.exp a) = field a x.trailW (1 + x.expW) := by
  rw [toNat_sign, exp, cat_field_field, Nat.add_comm]

theorem cat_manh_manl : cat (x.manh a) x.manlW (x.manl a) = field a 0 x.trailW := by
  have h := cat_field_field a 0 x.manlW x.manhW
  rwa [Nat.zero_add, Nat.add_comm x.manlW] at h

theorem cat_sign_exp_manh :
    cat (cat (x.sign a).toNat x.expW (x.exp a)) x.manhW (x.manh a) = field a x.manlW (1 + x.expW + x.manhW) := by
  rw [cat_sign_exp, trailW, Nat.add_comm x.manhW, manh, cat_field_field, Nat.add_comm x.manhW]

/-- 10_state.md R29: the two mantissa words are the trailing field. -/
theorem join_eq_cat_trail (s : Bool) (e h l : Nat) :
    x.join s e h l = cat (cat s.toNat x.expW e) x.trailW (cat h x.manlW l) :=
  cat_assoc ..

/-- 40_word_accessors.md R92: all but the high mantissa word passes through. -/
theorem join_replace_manh (w : Nat) :
    x.join (x.sign a) (x.exp a) w (x.manl a) =
      cat (cat (field a x.trailW (1 + x.expW)) x.manhW w) x.manlW (field a 0 x.manlW) := by
  rw [join, cat_sign_exp, manl]

/-- 40_word_accessors.md R93: all but the low mantissa word passes through. -/
theorem join_replace_manl (w : Nat) :
    x.join (x.sign a) (x.exp a) (x.manh a) w = cat (field a x.manlW (1 + x.expW + x.manhW)) x.manlW w := by
  rw [join, cat_sign_exp_manh]

/-- 40_word_accessors.md R95: all but the exponent field passes through. -/
theorem join_replace_exp (w : Nat) :
    x.join (x.sign a) w (x.manh a) (x.manl a) =
      cat (cat (field a (x.trailW + x.expW) 1) x.expW w) x.trailW (field a 0 x.trailW) := by
  rw [join_eq_cat_trail, toNat_sign, cat_manh_manl]

end ExtLayout

end Sys2Proof

namespace Sys2Proof.Machine

section Answers
variable {s : State} {i : Instr} {v r : Pattern}

theorem exec_answered (hx : exec i s = .next (s.respond v 0#4)) (hv : v = r) : exec i s = .next (s.answered r) := by
  rw [hx, respond_eq_answered, hv]

/-- State.runs from its three parts: the beat has the command's word and its operands on the buses, the command answers
without a flag, and its answer is `r`. -/
theorem runs_of_fromBuses {b : Beat} (hb : i.cmd = b.cmd ∧ i.fromBuses s.cfg.ext b.opA b.opB = i)
    (hx : exec i s = .next (s.respond v 0#4)) (hv : v = r) : s.runs b i r :=
  ⟨decode_eq_ok_iff.2 hb, exec_answered hx hv⟩

end Answers

/-- Settles O24: the operands are the low bits of their buses, and joining the fields an accessor keeps gives back the
slice of `a` it leaves alone. -/
theorem extendedAccessors : Obligations.ExtendedAccessors := by
  unfold Obligations.ExtendedAccessors
  rintro s _ _ _ _ _ A B _ rfl rfl rfl rfl rfl rfl
  simp only [← field_zero A, ← field_zero B]
  refine ⟨?extractX, ?insertX, ?getmanhX, ?getmanlX, ?setmanhX, ?setmanlX, ?getexpX, ?setexpX⟩
  case setmanhX => exact runs_of_fromBuses ⟨rfl, rfl⟩ rfl (s.cfg.ext.join_replace_manh _ _)
  case setmanlX => exact runs_of_fromBuses ⟨rfl, rfl⟩ rfl (s.cfg.ext.join_replace_manl _ _)
  case setexpX => exact runs_of_fromBuses ⟨rfl, rfl⟩ rfl (s.cfg.ext.join_replace_exp _ _)
  case extractX | insertX | getmanhX | getmanlX | getexpX => exact runs_of_fromBuses ⟨rfl, rfl⟩ rfl rfl

/-- Settles O22: both commands answer the low word of `op_a`. -/
theorem binary32Accessors : Obligations.Binary32Accessors := by
  unfold Obligations.Binary32Accessors
  intro s A B a ha
  obtain rfl : wordOperand A = a := BitVec.eq_of_toNat_eq ha.symm
  exact ⟨runs_of_fromBuses ⟨rfl, rfl⟩ rfl rfl, runs_of_fromBuses ⟨rfl, rfl⟩ rfl rfl⟩

/-- Settles O23: what each command answers is the number of the words it takes or puts together. -/
theorem binary64Accessors : Obligations.Binary64Accessors := by
  unfold Obligations.Binary64Accessors
  intro s A B a hi w ha hhi hw
  obtain rfl : dwordOperand A = a := BitVec.eq_of_toNat_eq ha.symm
  obtain rfl : wordOperand A = hi := BitVec.eq_of_toNat_eq hhi.symm
  obtain rfl : wordOperand B = w := BitVec.eq_of_toNat_eq hw.symm
  refine ⟨?extractD, ?insertD, ?gethiD, ?getloD, ?sethiD, ?setloD⟩
  case extractD => exact runs_of_fromBuses ⟨rfl, rfl⟩ rfl (congrArg BitVec.toNat (joinWords_hi_lo _))
  case insertD => exact runs_of_fromBuses ⟨rfl, rfl⟩ rfl (joinWords_toNat _ _)
  case gethiD => exact runs_of_fromBuses ⟨rfl, rfl⟩ rfl (hiWord_toNat _)
  case getloD => exact runs_of_fromBuses ⟨rfl, rfl⟩ rfl (loWord_toNat _)
  case sethiD => exact runs_of_fromBuses ⟨rfl, rfl⟩ rfl (by rw [joinWords_toNat, loWord_toNat])
  case setloD => exact runs_of_fromBuses ⟨rfl, rfl⟩ rfl (by rw [joinWords_toNat, hiWord_toNat])

/-- Settles O25: the answers are the halves of the pattern, and INSERT.D joins them again. -/
theorem insertOfHalves : Obligations.InsertOfHalves := by
  unfold Obligations.InsertOfHalves
  intro a s
  exact ⟨hiWord a, loWord a, exec_answered rfl rfl, exec_answered rfl rfl,
    exec_answered rfl (congrArg BitVec.toNat (joinWords_hi_lo a))⟩

end Sys2Proof.Machine
end

section
/-! PROOFS. The sign primitives: SIGNBIT answers the top bit of its operand and COPYSIGN puts the top bit of `y` over
the rest of `x`, in a format of `n + 1` bits (O26, O27); the laws of 41_sign_primitives.md R108 are laws of that one
concatenation (O28 to O30). -/

namespace Sys2Proof

/-- The top bit of a pattern of `n + 1` bits. -/
theorem field_top_of_lt {v n : Nat} (hv : v < 2 ^ (n + 1)) : field v n 1 = v / 2 ^ n := by
  have htop : v / 2 ^ n < 2 := Nat.div_lt_of_lt_mul (Nat.pow_succ 2 n ▸ hv)
  exact Nat.mod_eq_of_lt htop

theorem toNat_testBit_eq_field (v i : Nat) : (v.testBit i).toNat = field v i 1 := by
  rw [Nat.toNat_testBit, field, pow_one]

/-- A field of a low part is that field of the whole. -/
theorem field_field_zero {lo len n : Nat} (h : lo + len ≤ n) (v : Nat) :
    field (field v 0 n) lo len = field v lo len := by
  apply Nat.eq_of_testBit_eq
  intro i
  simp only [testBit_field, Nat.zero_add]
  by_cases hi : i < len
  · have hn : lo + i < n := by omega
    simp [hn]
  · simp [hi]

/-- `{y[n], x[n-1:0]}`: the top bit of `y` over the rest of `x`, in a format of `n + 1` bits (41_sign_primitives.md
R106). -/
def copySign (n : Nat) (x y : Pattern) : Pattern := cat (field y n 1) n (field x 0 n)

section CopySign
variable (n : Nat) (x y z : Pattern)

theorem copySign_lt : copySign n x y < 2 ^ (n + 1) :=
  Nat.add_comm n 1 ▸ cat_lt (field_lt y n 1) (field_lt x 0 n)

/-- COPYSIGN in arithmetic, for a sign operand of the format. -/
theorem copySign_of_lt {y : Pattern} (hy : y < 2 ^ (n + 1)) : copySign n x y = y / 2 ^ n * 2 ^ n + x % 2 ^ n := by
  rw [copySign, field_top_of_lt hy, field_zero, cat]

theorem copySign_top : field (copySign n x y) n 1 = field y n 1 := by
  have h := field_cat_high (a := field y n 1) (field_lt x 0 n) 0 1
  rwa [Nat.add_zero, field_zero_of_lt (field_lt y n 1)] at h

theorem copySign_low : field (copySign n x y) 0 n = field x 0 n := field_cat_low (field_lt x 0 n)

theorem copySign_copySign : copySign n (copySign n x y) z = copySign n x z := by
  rw [copySign, copySign_low, copySign]

theorem copySign_self {x : Pattern} (hx : x < 2 ^ (n + 1)) : copySign n x x = x := by
  rw [copySign_of_lt n x hx, Nat.div_add_mod']

end CopySign

/-- 10_state.md R30: the class of a pattern is read off the bits below its sign. -/
theorem Fmt.classOf_eq_of_low_eq {F : Fmt} {n : Nat} (hF : F.width = n + 1) {v w : Pattern}
    (h : field v 0 n = field w 0 n) : F.classOf v = F.classOf w := by
  have hfield {lo len : Nat} (hle : lo + len ≤ n) : field v lo len = field w lo len := by
    rw [← field_field_zero hle v, h, field_field_zero hle]
  simp only [width] at hF
  have hexpf : F.expf v = F.expf w := hfield (by omega)
  have htrail : F.trail v = F.trail w := hfield (by omega)
  rw [classOf, classOf, frac, frac, hexpf, htrail]

theorem Fmt.classOf_copySign {F : Fmt} {n : Nat} (hF : F.width = n + 1) (x y : Pattern) :
    F.classOf (copySign n x y) = F.classOf x :=
  classOf_eq_of_low_eq hF (copySign_low n x y)

/-- 41_sign_primitives.md R105: replacing the sign of the high word replaces the sign of the pattern. -/
theorem joinWords_copySignWord_toNat (x y : DWord) :
    (joinWords (Machine.copySignWord (hiWord x) (hiWord y)) (loWord x)).toNat = copySign 63 x.toNat y.toNat := by
  rw [joinWords_toNat, copySignWord_toNat, hiWord_toNat, hiWord_toNat, loWord_toNat]
  simp only [copySign, cat, field]
  omega

theorem ExtLayout.exists_width_eq (x : ExtLayout) : ∃ n, x.width = n + 1 :=
  ⟨x.expW + x.manhW + x.manlW, by simp only [width]; omega⟩

end Sys2Proof

namespace Sys2Proof.Machine

/-! What the six commands answer, each in terms of its format's sign position. -/

section Commands
variable (s : State)

theorem exec_signbitS (x : Word) : exec (.signbitS x) s = .next (s.answered (field x.toNat 31 1)) :=
  exec_answered rfl (toNat_testBit_eq_field _ _)

theorem exec_signbitD (x : DWord) : exec (.signbitD x) s = .next (s.answered (field x.toNat 63 1)) :=
  exec_answered rfl (toNat_testBit_eq_field _ _)

theorem exec_copysignS (x y : Word) :
    exec (.copysignS x y) s = .next (s.answered (copySign 31 x.toNat y.toNat)) :=
  exec_answered rfl (copySignWord_toNat x y)

theorem exec_copysignD (x y : DWord) :
    exec (.copysignD x y) s = .next (s.answered (copySign 63 x.toNat y.toNat)) :=
  exec_answered rfl (joinWords_copySignWord_toNat x y)

variable {s} {n : Nat} (hn : s.cfg.ext.width = n + 1)
include hn

theorem toNat_ext_sign (x : Pattern) : (s.cfg.ext.sign x).toNat = field x n 1 := by
  rw [ExtLayout.sign, hn, Nat.add_sub_cancel, toNat_testBit_eq_field]

theorem exec_signbitX (x : Pattern) : exec (.signbitX x) s = .next (s.answered (field x n 1)) :=
  exec_answered rfl (toNat_ext_sign hn x)

theorem exec_copysignX (x y : Pattern) : exec (.copysignX x y) s = .next (s.answered (copySign n x y)) := by
  refine exec_answered rfl ?_
  rw [toNat_ext_sign hn, hn, Nat.add_sub_cancel, copySign]

end Commands

/-- State.runs for a command whose answer `v` is known. -/
theorem runs_of_answered {s : State} {b : Beat} {i : Instr} {v r : Pattern}
    (hb : i.cmd = b.cmd ∧ i.fromBuses s.cfg.ext b.opA b.opB = i) (hx : exec i s = .next (s.answered v)) (hv : v = r) :
    s.runs b i r :=
  ⟨decode_eq_ok_iff.2 hb, hv ▸ hx⟩

/-- Settles O27: the operands are the low bits of their buses, and `y` is a pattern of the format, with nothing above
its sign. -/
theorem copysignReplacesTopBit : Obligations.CopysignReplacesTopBit := by
  unfold Obligations.CopysignReplacesTopBit
  rintro s A B _ _ _ x y u v hx hy hu hv rfl rfl rfl
  obtain rfl : wordOperand A = x := BitVec.eq_of_toNat_eq hx.symm
  obtain rfl : wordOperand B = y := BitVec.eq_of_toNat_eq hy.symm
  obtain rfl : dwordOperand A = u := BitVec.eq_of_toNat_eq hu.symm
  obtain rfl : dwordOperand B = v := BitVec.eq_of_toNat_eq hv.symm
  obtain ⟨n, hn⟩ := s.cfg.ext.exists_width_eq
  simp only [← field_zero _ s.cfg.ext.width]
  have hb : field B 0 s.cfg.ext.width < 2 ^ (n + 1) := hn ▸ field_lt B 0 _
  refine ⟨?copysignS, ?copysignD, ?copysignX⟩
  case copysignS =>
    exact runs_of_answered ⟨rfl, rfl⟩ (exec_copysignS s _ _) (copySign_of_lt 31 _ (wordOperand B).isLt)
  case copysignD =>
    exact runs_of_answered ⟨rfl, rfl⟩ (exec_copysignD s _ _) (copySign_of_lt 63 _ (dwordOperand B).isLt)
  case copysignX =>
    refine runs_of_answered ⟨rfl, rfl⟩ (exec_copysignX hn _ _) ?_
    rw [copySign_of_lt n _ hb, hn, Nat.add_sub_cancel]

/-- Settles O26: nothing of a pattern stands above its top bit. -/
theorem signbitReadsTopBit : Obligations.SignbitReadsTopBit := by
  unfold Obligations.SignbitReadsTopBit
  rintro s A B _ _ x d hx hd rfl rfl
  obtain rfl : wordOperand A = x := BitVec.eq_of_toNat_eq hx.symm
  obtain rfl : dwordOperand A = d := BitVec.eq_of_toNat_eq hd.symm
  obtain ⟨n, hn⟩ := s.cfg.ext.exists_width_eq
  simp only [← field_zero A]
  have ha : field A 0 s.cfg.ext.width < 2 ^ (n + 1) := hn ▸ field_lt A 0 _
  refine ⟨?signbitS, ?signbitD, ?signbitX⟩
  case signbitS => exact runs_of_answered ⟨rfl, rfl⟩ (exec_signbitS s _) (field_top_of_lt (wordOperand A).isLt)
  case signbitD => exact runs_of_answered ⟨rfl, rfl⟩ (exec_signbitD s _) (field_top_of_lt (dwordOperand A).isLt)
  case signbitX =>
    refine runs_of_answered ⟨rfl, rfl⟩ (exec_signbitX hn _) ?_
    rw [field_top_of_lt ha, hn, Nat.add_sub_cancel]

/-- Settles O28, with the answer as a word of its own. -/
theorem copysignLawsBinary32 : Obligations.CopysignLawsBinary32 := by
  unfold Obligations.CopysignLawsBinary32
  intro s x y z
  have hr : (copySignWord x y).toNat = copySign 31 x.toNat y.toNat := copySignWord_toNat x y
  refine ⟨copySignWord x y, ?answer, ?sign, ?again, ?self, ?low, ?classOf⟩
  case answer => rw [exec_copysignS, hr]
  case sign => rw [exec_signbitS, exec_signbitS, hr, copySign_top]
  case again => rw [exec_copysignS, exec_copysignS, hr, copySign_copySign]
  case self => rw [exec_copysignS, copySign_self 31 x.isLt]
  case low => rw [hr, copySign_low]
  case classOf => rw [hr, Fmt.classOf_copySign rfl]

/-- Settles O29, with the answer joined from its two words. -/
theorem copysignLawsBinary64 : Obligations.CopysignLawsBinary64 := by
  unfold Obligations.CopysignLawsBinary64
  intro s x y z
  have hr := joinWords_copySignWord_toNat x y
  refine ⟨joinWords (copySignWord (hiWord x) (hiWord y)) (loWord x), ?answer, ?sign, ?again, ?self, ?low,
    ?classOf⟩
  case answer => rw [exec_copysignD, hr]
  case sign => rw [exec_signbitD, exec_signbitD, hr, copySign_top]
  case again => rw [exec_copysignD, exec_copysignD, hr, copySign_copySign]
  case self => rw [exec_copysignD, copySign_self 63 x.isLt]
  case low => rw [hr, copySign_low]
  case classOf => rw [hr, Fmt.classOf_copySign rfl]

/-- Settles O30: the laws need only that the format has a top bit, which every layout has. -/
theorem copysignLawsExtended : Obligations.CopysignLawsExtended := by
  unfold Obligations.CopysignLawsExtended
  rintro s N x y z hN hx - -
  obtain ⟨n, hn⟩ := s.cfg.ext.exists_width_eq
  obtain rfl : N = n + 1 := hN.trans hn
  refine ⟨copySign n x y, copySign_lt n x y, exec_copysignX hn x y, ?sign, ?again, ?self, copySign_low n x y,
    ?classOf⟩
  case sign => rw [exec_signbitX hn, exec_signbitX hn, copySign_top]
  case again => rw [exec_copysignX hn, exec_copysignX hn, copySign_copySign]
  case self => rw [exec_copysignX hn, copySign_self n hx]
  case classOf => exact Fmt.classOf_copySign ((extended_width _).trans hn) x y

end Sys2Proof.Machine
end

section
/-! PROOFS. Patterns by their magnitude (10_state.md R30, R31): the pattern of a sign and a magnitude, the named
patterns among them, and the class of a pattern as bounds on its magnitude. -/

namespace Sys2Proof

namespace Fmt

/-- The magnitude of the infinities, the greatest one a number has. -/
def infMag (F : Fmt) : Nat := F.expMax * 2 ^ F.fracW

/-- The canonical pattern of a sign and a magnitude: what steps 6 and 7 of 42_nextafter.md R110 put together. -/
def ofMag (F : Fmt) (s : Bool) (m : Nat) : Pattern := F.asm s (m / 2 ^ F.fracW) (m % 2 ^ F.fracW)

/-- The class of every pattern of magnitude `m`. -/
def magClass (F : Fmt) (m : Nat) : FpClass :=
  if F.infMag < m then .nan
  else if m = F.infMag then .infinity
  else if m = 0 then .zero
  else if m < 2 ^ F.fracW then .subnormal
  else .normal

variable {F : Fmt} {s : Bool} {m : Nat} {v w : Pattern}

theorem expMax_succ (F : Fmt) : F.expMax + 1 = 2 ^ F.expW := Nat.sub_add_cancel (Nat.one_le_two_pow)

theorem Ok.two_le_expMax (h : F.Ok) : 2 ≤ F.expMax := by
  have hp : 2 ^ 2 ≤ 2 ^ F.expW := Nat.pow_le_pow_right Nat.two_pos h.exp_two
  have := F.expMax_succ
  omega

theorem Ok.two_le_fracPow (h : F.Ok) : 2 ≤ 2 ^ F.fracW :=
  Nat.le_self_pow (by have := h.two_le_fracW; omega) 2

/-- The smallest normal number, and the smallest subnormal one, lie below the infinity. -/
theorem Ok.fracPow_lt_infMag (h : F.Ok) : 2 ^ F.fracW < F.infMag := by
  have hp := Nat.mul_le_mul_right (2 ^ F.fracW) h.two_le_expMax
  have := Nat.two_pow_pos F.fracW
  rw [infMag]
  omega

theorem Ok.one_lt_infMag (h : F.Ok) : 1 < F.infMag := lt_trans h.two_le_fracPow h.fracPow_lt_infMag

/-! ### The pattern of a magnitude -/

theorem div_fracPow_le (hm : m ≤ F.infMag) : m / 2 ^ F.fracW ≤ F.expMax :=
  Nat.div_le_of_le_mul (Nat.mul_comm _ _ ▸ hm)

theorem div_fracPow_lt (hm : m ≤ F.infMag) : m / 2 ^ F.fracW < 2 ^ F.expW :=
  lt_of_le_of_lt (div_fracPow_le hm) (mask_lt _)

theorem div_fracPow_eq_expMax_iff (hm : m ≤ F.infMag) : m / 2 ^ F.fracW = F.expMax ↔ m = F.infMag := by
  refine ⟨fun he => le_antisymm hm ?_, fun he => ?_⟩
  · rw [infMag, ← he]
    exact Nat.div_mul_le_self m _
  · rw [he, infMag, Nat.mul_div_cancel _ (Nat.two_pow_pos _)]

theorem div_fracPow_eq_zero_iff : m / 2 ^ F.fracW = 0 ↔ m < 2 ^ F.fracW := Nat.div_eq_zero_iff_lt (Nat.two_pow_pos _)

theorem mod_fracPow_lt (F : Fmt) (m : Nat) : m % 2 ^ F.fracW < 2 ^ F.fracW := Nat.mod_lt _ (Nat.two_pow_pos _)

theorem Ok.sign_ofMag (h : F.Ok) (hm : m ≤ F.infMag) : F.sign (F.ofMag s m) = s :=
  h.sign_asm (div_fracPow_lt hm) (F.mod_fracPow_lt m)

theorem Ok.mag_ofMag (h : F.Ok) (hm : m ≤ F.infMag) : F.mag (F.ofMag s m) = m := by
  rw [ofMag, h.mag_asm (div_fracPow_lt hm) (F.mod_fracPow_lt m), Nat.div_add_mod']

theorem Ok.ord_ofMag (h : F.Ok) (hm : m ≤ F.infMag) : F.ord (F.ofMag s m) = signedMag s m := by
  rw [ord_eq_signedMag, h.sign_ofMag hm, h.mag_ofMag hm]

theorem Ok.canonical_ofMag (h : F.Ok) (hm : m ≤ F.infMag) : F.canonical (F.ofMag s m) = true :=
  h.canonical_asm (div_fracPow_lt hm) (F.mod_fracPow_lt m)

theorem Ok.ofMag_lt (h : F.Ok) (hm : m ≤ F.infMag) : F.ofMag s m < 2 ^ F.width :=
  h.asm_lt (div_fracPow_lt hm) (F.mod_fracPow_lt m)

/-- A canonical pattern is the one of its sign and magnitude. -/
theorem Ok.ofMag_sign_mag (h : F.Ok) (hv : v < 2 ^ F.width) (hc : F.canonical v = true) :
    F.ofMag (F.sign v) (F.mag v) = v := by
  rw [ofMag, mag_div h, mag_mod h, asm_fields hv hc]

/-! ### The named patterns -/

theorem infPat_eq_ofMag (F : Fmt) (s : Bool) : F.infPat s = F.ofMag s F.infMag := by
  rw [ofMag, infMag, Nat.mul_div_cancel _ (Nat.two_pow_pos _), Nat.mul_mod_left, infPat]

theorem Ok.minSub_eq_ofMag (h : F.Ok) (s : Bool) : F.minSub s = F.ofMag s 1 := by
  have h1 : 1 < 2 ^ F.fracW := h.two_le_fracPow
  rw [ofMag, Nat.div_eq_of_lt h1, Nat.mod_eq_of_lt h1, minSub]

theorem minNorm_eq_ofMag (F : Fmt) (s : Bool) : F.minNorm s = F.ofMag s (2 ^ F.fracW) := by
  rw [ofMag, Nat.div_self (Nat.two_pow_pos _), Nat.mod_self, minNorm]

theorem Ok.maxFin_eq_ofMag (h : F.Ok) (s : Bool) : F.maxFin s = F.ofMag s (F.infMag - 1) := by
  have hm : F.infMag - 1 = cat (F.expMax - 1) F.fracW (mask F.fracW) := by
    obtain ⟨e, he⟩ : ∃ e, F.expMax = e + 1 := ⟨F.expMax - 1, by have := h.two_le_expMax; omega⟩
    have := Nat.two_pow_pos F.fracW
    rw [infMag, cat, mask, he, Nat.add_sub_cancel, Nat.add_mul]
    omega
  rw [ofMag, hm, cat_div (mask_lt _), cat_mod (mask_lt _), maxFin]

/-! ### The class by the magnitude -/

theorem Ok.classOf_eq_magClass (h : F.Ok) (v : Pattern) : F.classOf v = F.magClass (F.mag v) := by
  have hf := h.frac_lt v
  have he := F.expf_lt v
  have hmax := F.expMax_succ
  rw [classOf, magClass, mag, infMag]
  by_cases htop : F.expf v = F.expMax
  · rw [if_pos htop, htop]
    by_cases hz : F.frac v = 0
    · simp [hz]
    · simp [hz, Nat.pos_of_ne_zero hz]
  · have hle : (F.expf v + 1) * 2 ^ F.fracW ≤ F.expMax * 2 ^ F.fracW := Nat.mul_le_mul_right _ (by omega)
    have hlt : F.expf v * 2 ^ F.fracW + F.frac v < F.expMax * 2 ^ F.fracW := by
      rw [Nat.add_mul] at hle
      omega
    rw [if_neg htop, if_neg hlt.not_gt, if_neg hlt.ne]
    by_cases hz : F.expf v = 0
    · simp [hz, hf]
    · have hge : 1 * 2 ^ F.fracW ≤ F.expf v * 2 ^ F.fracW := Nat.mul_le_mul_right _ (by omega)
      have hpos := Nat.two_pow_pos F.fracW
      rw [if_neg hz, if_neg (show ¬ F.expf v * 2 ^ F.fracW + F.frac v = 0 by omega), if_neg (by omega)]

theorem Ok.isNan_eq_false_iff (h : F.Ok) : F.isNan v = false ↔ F.mag v ≤ F.infMag := by
  rw [isNan, decide_eq_false_iff_not, h.classOf_eq_magClass, magClass]
  split_ifs <;> simp <;> omega

theorem Ok.isNan_iff_mag (h : F.Ok) : F.isNan v = true ↔ F.infMag < F.mag v := by
  rw [← not_iff_not, Bool.not_eq_true, h.isNan_eq_false_iff, not_lt]

theorem Ok.classOf_eq_zero_iff (h : F.Ok) : F.classOf v = .zero ↔ F.mag v = 0 := by
  have := h.one_lt_infMag
  rw [h.classOf_eq_magClass, magClass]
  split_ifs <;> simp <;> omega

theorem Ok.classOf_eq_subnormal_iff (h : F.Ok) : F.classOf v = .subnormal ↔ F.mag v ≠ 0 ∧ F.mag v < 2 ^ F.fracW := by
  have := h.fracPow_lt_infMag
  rw [h.classOf_eq_magClass, magClass]
  split_ifs <;> simp <;> omega

theorem Ok.classOf_eq_normal_iff (h : F.Ok) :
    F.classOf v = .normal ↔ 2 ^ F.fracW ≤ F.mag v ∧ F.mag v < F.infMag := by
  have := Nat.two_pow_pos F.fracW
  rw [h.classOf_eq_magClass, magClass]
  split_ifs <;> simp <;> omega

theorem Ok.classOf_eq_infinity_iff (h : F.Ok) : F.classOf v = .infinity ↔ F.mag v = F.infMag := by
  rw [h.classOf_eq_magClass, magClass]
  split_ifs <;> simp <;> omega

/-! ### Equality by value -/

/-- A nonzero value has one sign and one magnitude. -/
theorem sign_mag_of_ord_eq (hm : F.mag v ≠ 0) (ho : F.ord v = F.ord w) : F.sign v = F.sign w ∧ F.mag v = F.mag w := by
  simp only [ord_eq_signedMag] at ho
  cases hv : F.sign v <;> cases hw : F.sign w <;> simp [signedMag, hv, hw] at ho ⊢ <;> omega

/-- A nonzero value has one canonical pattern. -/
theorem Ok.eq_of_ord_eq (h : F.Ok) (hv : v < 2 ^ F.width) (hw : w < 2 ^ F.width) (hcv : F.canonical v = true)
    (hcw : F.canonical w = true) (hm : F.mag v ≠ 0) (ho : F.ord v = F.ord w) : v = w := by
  obtain ⟨hs, hmag⟩ := sign_mag_of_ord_eq hm ho
  rw [← h.ofMag_sign_mag hv hcv, hs, hmag, h.ofMag_sign_mag hw hcw]

theorem ord_eq_zero_iff : F.ord v = 0 ↔ F.mag v = 0 := by
  rw [ord]
  split <;> omega

end Fmt

end Sys2Proof
end

section
/-! PROOFS. The general step of NextAfter (42_nextafter.md R116 to R119) by the stepped magnitude. -/

namespace Sys2Proof
open Machine

/-- The flags of steps 5, 6 and 7, by the stepped magnitude (42_nextafter.md R123). -/
def stepFlags (c : Config) (F : Fmt) (m : Nat) : FlagBits :=
  if m = F.infMag then overflowFlags
  else if m < 2 ^ F.fracW then underflowFlags c (decide (m ≠ 0))
  else 0

section Stepping
variable {F : Fmt} {x y : Pattern}

/-- The table of R116 is the algorithm's choice of direction. -/
theorem steppedMag_eq (F : Fmt) (x y : Pattern) :
    steppedMag F x y = if stepsOutward (F.ord x) (F.ord y) (F.sign x) then F.mag x + 1 else F.mag x - 1 := by
  rw [steppedMag, stepsOutward]
  cases F.sign x <;> cases decide (F.ord x < F.ord y) <;> rfl

/-- R116: the magnitude changes by one. -/
theorem steppedMag_cases (h0 : F.mag x ≠ 0) :
    steppedMag F x y = F.mag x + 1 ∨ steppedMag F x y + 1 = F.mag x := by
  rw [steppedMag_eq]
  split
  · exact .inl rfl
  · exact .inr (by omega)

/-- R116: no step passes the infinity. -/
theorem steppedMag_le (hF : F.Ok) (hx : F.isNan x = false) (hy : F.isNan y = false) (hne : F.ord x ≠ F.ord y) :
    steppedMag F x y ≤ F.infMag := by
  have hmx := hF.isNan_eq_false_iff.1 hx
  have hmy := hF.isNan_eq_false_iff.1 hy
  rw [steppedMag_eq]
  split
  case isTrue hout => exact lt_of_stepsOutward hmx hmy hne hout
  case isFalse => omega

/-- R124: a step of the magnitude under the sign of `x` is a step of the value toward `y`. -/
theorem signedMag_steppedMag (h0 : F.mag x ≠ 0) :
    signedMag (F.sign x) (steppedMag F x y) = if F.ord x < F.ord y then F.ord x + 1 else F.ord x - 1 := by
  have hord := ord_eq_signedMag F x
  rw [steppedMag_eq, stepsOutward]
  cases hs : F.sign x <;> by_cases hlt : F.ord x < F.ord y <;> simp [signedMag, hs, hlt] at hord ⊢ <;> omega

variable {c : Config} {id : FormatId}

/-- The endings of steps 5 to 7 are one pattern, with flags by its magnitude. -/
theorem nextAfter_of_step (hF : (c.fmt id).Ok) (hx : (c.fmt id).isNan x = false) (hy : (c.fmt id).isNan y = false)
    (hne : (c.fmt id).ord x ≠ (c.fmt id).ord y) (h0 : (c.fmt id).mag x ≠ 0) :
    nextAfter c id x y =
      ((c.fmt id).ofMag ((c.fmt id).sign x) (steppedMag (c.fmt id) x y),
        stepFlags c (c.fmt id) (steppedMag (c.fmt id) x y)) := by
  have hle := steppedMag_le hF hx hy hne
  simp only [nextAfter, hx, hy, Bool.or_false, Bool.false_eq_true, if_false, if_neg hne, if_neg h0, ← steppedMag_eq]
  generalize steppedMag (c.fmt id) x y = m at hle
  generalize c.fmt id = F at hle
  simp only [stepFlags, Fmt.div_fracPow_eq_expMax_iff hle, Fmt.div_fracPow_eq_zero_iff]
  split_ifs with hinf hsub
  · rw [hinf, F.infPat_eq_ofMag]
  · rw [Fmt.ofMag, Nat.mod_eq_of_lt hsub]
  · rw [Fmt.ofMag]

theorem nextAfter_of_takesStep (hF : (c.fmt id).Ok) (h : takesStep (c.fmt id) x y) :
    nextAfter c id x y =
      ((c.fmt id).ofMag ((c.fmt id).sign x) (steppedMag (c.fmt id) x y),
        stepFlags c (c.fmt id) (steppedMag (c.fmt id) x y)) := by
  obtain ⟨⟨-, hx⟩, ⟨-, hy⟩, hne, h0⟩ := h
  exact nextAfter_of_step hF hx hy hne h0

/-- R124: from one number to another the answer is the canonical pattern of a magnitude no larger than the infinity's,
and its value is one step from that of `x` toward that of `y`. -/
theorem nextAfter_of_ord_ne (hF : (c.fmt id).Ok) (hx : (c.fmt id).isNan x = false) (hy : (c.fmt id).isNan y = false)
    (hne : (c.fmt id).ord x ≠ (c.fmt id).ord y) :
    ∃ s m, m ≤ (c.fmt id).infMag ∧ (nextAfter c id x y).1 = (c.fmt id).ofMag s m ∧
      signedMag s m =
        if (c.fmt id).ord x < (c.fmt id).ord y then (c.fmt id).ord x + 1 else (c.fmt id).ord x - 1 := by
  by_cases h0 : (c.fmt id).mag x = 0
  · refine ⟨(c.fmt id).sign y, 1, hF.one_lt_infMag.le, ?_, ?_⟩
    · rw [nextAfter_of_zero hx hy hne h0, hF.minSub_eq_ofMag]
    · have hx0 : (c.fmt id).ord x = 0 := Fmt.ord_eq_zero_iff.2 h0
      have hy0 : (c.fmt id).mag y ≠ 0 := fun h => hne (hx0.trans (Fmt.ord_eq_zero_iff.2 h).symm)
      have hneg := (c.fmt id).sign_iff_ord_neg hy0
      rw [hx0] at hne ⊢
      cases hs : (c.fmt id).sign y <;> simp [hs] at hneg
      · rw [if_pos (by omega)]; rfl
      · rw [if_neg (by omega)]; rfl
  · refine ⟨_, _, steppedMag_le hF hx hy hne, ?_, signedMag_steppedMag h0⟩
    rw [nextAfter_of_step hF hx hy hne h0]

end Stepping

end Sys2Proof
end

section
/-! PROOFS. The one-word form of NEXTAFTER answers the seven steps on format S (O31), after what the three forms share:
without a stored leading bit a pattern is its sign over its magnitude, and step 4 is plus or minus one on the whole
pattern (42_nextafter.md R116, R120). -/

namespace Sys2Proof
open Machine

/-- Two cascades agree, seen through `g`, when their tests agree and each ending does. -/
theorem map_ite_eq_ite {α β : Type} {g : α → β} {p q : Prop} [Decidable p] [Decidable q] {a b : α} {a' b' : β}
    (h : p ↔ q) (ha : q → g a = a') (hb : ¬q → g b = b') : g (if p then a else b) = if q then a' else b' := by
  by_cases hq : q
  · rw [if_pos (h.2 hq), if_pos hq, ha hq]
  · rw [if_neg (mt h.1 hq), if_neg hq, hb hq]

/-- The seven steps with every ending after step 2 as the pattern of a magnitude. -/
theorem nextAfter_eq_cascade {c : Config} {id : FormatId} (hF : (c.fmt id).Ok) (x y : Pattern) :
    nextAfter c id x y =
      if (c.fmt id).isNan x = true ∨ (c.fmt id).isNan y = true then
        ((nanAdd c id x y).1, nanFlags (nanAdd c id x y).2)
      else if (c.fmt id).ord x = (c.fmt id).ord y then (y, 0)
      else if (c.fmt id).mag x = 0 then ((c.fmt id).ofMag ((c.fmt id).sign y) 1, zeroSourceFlags)
      else ((c.fmt id).ofMag ((c.fmt id).sign x) (steppedMag (c.fmt id) x y),
        stepFlags c (c.fmt id) (steppedMag (c.fmt id) x y)) := by
  split_ifs with hnan heq hzero
  · exact nextAfter_of_nan hnan
  all_goals
    rw [not_or, Bool.not_eq_true, Bool.not_eq_true] at hnan
    obtain ⟨hx, hy⟩ := hnan
  · exact nextAfter_of_eq hx hy heq
  · rw [nextAfter_of_zero hx hy heq hzero, hF.minSub_eq_ofMag]
  · exact nextAfter_of_step hF hx hy heq hzero

/-- Steps 5 to 7 as the commands test for them. -/
theorem ofMag_stepFlags_eq_ite (c : Config) (F : Fmt) (s : Bool) (m : Nat) :
    (F.ofMag s m, stepFlags c F m) =
      if m = F.infMag then (F.ofMag s F.infMag, overflowFlags)
      else if m < 2 ^ F.fracW then (F.ofMag s m, underflowFlags c (decide (m ≠ 0)))
      else (F.ofMag s m, 0) := by
  rw [stepFlags]
  split_ifs with hinf
  · rw [hinf]
  · rfl
  · rfl

/-- Without a stored leading bit, replacing the magnitude replaces all but the top bit. -/
theorem Fmt.ofMag_sign_of_nb_zero {F : Fmt} (hnb : F.nb = 0) {v : Pattern} {n : Nat} (hn : F.width = n + 1)
    (hv : v < 2 ^ (n + 1)) (m : Nat) : F.ofMag (F.sign v) m = v / 2 ^ n * 2 ^ n + m := by
  have hfw : F.fracW = F.trailW := if_neg (not_not.2 hnb)
  have hsum : F.expW + F.trailW = n := by
    rw [width] at hn
    omega
  rw [ofMag, Fmt.asm_of_nb_zero hnb, hfw, Nat.add_assoc, Nat.div_add_mod', hsum, sign, hn, Nat.add_sub_cancel,
    toNat_testBit_eq_field, field_top_of_lt hv]

/-- One step of a word, in either direction, leaves its top bit alone when its low bits can make the step. -/
theorem toNat_stepped {n : Nat} (x : BitVec (n + 1)) (b : Bool) (hup : b = true → x.toNat % 2 ^ n + 1 < 2 ^ n)
    (hdown : b = false → x.toNat % 2 ^ n ≠ 0) :
    (if b then x + 1 else x - 1).toNat =
      x.toNat / 2 ^ n * 2 ^ n + if b then x.toNat % 2 ^ n + 1 else x.toNat % 2 ^ n - 1 := by
  have hx := x.isLt
  have hq : x.toNat / 2 ^ n * 2 ^ n ≤ 1 * 2 ^ n :=
    Nat.mul_le_mul_right _ (by rw [Nat.pow_succ] at hx; exact Nat.lt_succ_iff.1 (Nat.div_lt_of_lt_mul hx))
  have hdm := Nat.div_add_mod' x.toNat (2 ^ n)
  have hone : (1 : BitVec (n + 1)).toNat = 1 := by simp
  have hpow := Nat.pow_succ 2 n
  cases b with
  | true =>
    have := hup rfl
    rw [if_pos rfl, if_pos rfl, BitVec.toNat_add, hone, Nat.mod_eq_of_lt (by omega)]
    omega
  | false =>
    have := hdown rfl
    have hle : 1 ≤ x := by rw [BitVec.le_def, hone]; omega
    rw [if_neg Bool.false_ne_true, if_neg Bool.false_ne_true, BitVec.toNat_sub_of_le hle, hone]
    omega

/-- Step 4 of a format without a stored leading bit is plus or minus one on the pattern (R116). -/
theorem toNat_stepped_eq_ofMag {F : Fmt} (hF : F.Ok) (hnb : F.nb = 0) {n : Nat} (hn : F.width = n + 1)
    {x y : BitVec (n + 1)} (hx : F.isNan x.toNat = false) (hy : F.isNan y.toNat = false)
    (hne : F.ord x.toNat ≠ F.ord y.toNat) (h0 : F.mag x.toNat ≠ 0) :
    (if stepsOutward (F.ord x.toNat) (F.ord y.toNat) (F.sign x.toNat) then x + 1 else x - 1).toNat =
      F.ofMag (F.sign x.toNat) (steppedMag F x.toNat y.toNat) := by
  have hle := steppedMag_le hF hx hy hne
  have hfw : F.fracW = F.trailW := if_neg (not_not.2 hnb)
  have hsum : F.trailW + F.expW = n := by
    rw [Fmt.width] at hn
    omega
  have hinf : F.infMag < 2 ^ n := by
    rw [← hsum, Nat.pow_add, Nat.mul_comm, Fmt.infMag, hfw]
    exact Nat.mul_lt_mul_of_pos_right (mask_lt _) (Nat.two_pow_pos _)
  have hmag : F.mag x.toNat = x.toNat % 2 ^ n := by rw [Fmt.mag_of_nb_zero hnb, field_zero, hsum]
  rw [steppedMag_eq, hmag] at hle
  rw [Fmt.ofMag_sign_of_nb_zero hnb hn x.isLt, steppedMag_eq, hmag]
  refine toNat_stepped x _ (fun hout => ?_) (fun _ => hmag ▸ h0)
  rw [if_pos hout] at hle
  omega

/-! ### NEXTAFTER.S -/

theorem infMag_binary32 : Fmt.binary32.infMag = 0x7f800000 := by decide

/-- The magnitude of a binary32 pattern, as R120 reads it off the word. -/
theorem mag_binary32 (v : Word) : Fmt.binary32.mag v.toNat = v.toNat % 2 ^ 31 := by
  rw [Fmt.mag_of_nb_zero rfl, field_zero]
  rfl

theorem signedMag_word (v : Word) :
    signedMag (v.getLsbD 31) (v &&& 0x7fffffff).toNat = Fmt.binary32.ord v.toNat := by
  rw [ord_eq_signedMag, mag_binary32, toNat_and_magMask]
  rfl

theorem nan_binary32_iff (v : Word) : (v &&& 0x7fffffff) > 0x7f800000 ↔ Fmt.binary32.isNan v.toNat = true := by
  have hF : Fmt.binary32.Ok := fmt_ok .default rfl .S
  rw [hF.isNan_iff_mag, mag_binary32, infMag_binary32, gt_iff_lt, BitVec.lt_def, toNat_and_magMask]
  rfl

theorem zero_binary32_iff (v : Word) : v &&& 0x7fffffff = 0 ↔ Fmt.binary32.mag v.toNat = 0 := by
  rw [mag_binary32, ← toNat_and_magMask, BitVec.toNat_eq]
  rfl

/-- The exponent field of a word, in place, by the magnitude below its top bit. -/
theorem toNat_expMaskS_of_eq {w : Word} {q m : Nat} (hw : w.toNat = q * 2 ^ 31 + m) (hm : m < 2 ^ 31) :
    (w &&& 0x7f800000).toNat = m / 2 ^ 23 * 2 ^ 23 := by
  rw [toNat_and_expMaskS]
  omega

theorem ofMag_binary32 (x : Word) (m : Nat) :
    Fmt.binary32.ofMag (Fmt.binary32.sign x.toNat) m = x.toNat / 2 ^ 31 * 2 ^ 31 + m :=
  Fmt.ofMag_sign_of_nb_zero rfl rfl x.isLt m

/-- R120: steps 5 to 7 on the stepped word `w`, by its magnitude `m`. -/
theorem ending_binary32_by_mag (c : Config) {x w : Word} {m : Nat}
    (hw : w.toNat = Fmt.binary32.ofMag (Fmt.binary32.sign x.toNat) m) (hm : m ≤ Fmt.binary32.infMag) :
    Prod.map BitVec.toNat id
      (if w &&& 0x7f800000 = 0x7f800000 then ((x &&& 0x80000000) ||| 0x7f800000, overflowFlags)
        else if w &&& 0x7f800000 = 0 then (w, underflowFlags c (decide (w &&& 0x7fffffff ≠ 0)))
        else (w, 0)) =
      (Fmt.binary32.ofMag (Fmt.binary32.sign x.toNat) m, stepFlags c Fmt.binary32 m) := by
  rw [ofMag_stepFlags_eq_ite]
  rw [ofMag_binary32] at hw
  rw [infMag_binary32] at hm ⊢
  have hexp := toNat_expMaskS_of_eq hw (by omega)
  have hzero : w &&& 0x7fffffff = 0 ↔ m = 0 := by
    rw [BitVec.toNat_eq, toNat_and_magMask]
    change _ = 0 ↔ _
    omega
  rw [ofMag_binary32, ofMag_binary32, ← hw]
  refine map_ite_eq_ite ?overflow (fun _ => ?inf) fun _ => map_ite_eq_ite ?underflow (fun _ => ?tiny) fun _ => rfl
  case overflow =>
    rw [BitVec.toNat_eq, hexp]
    change _ = 0x7f800000 ↔ _
    omega
  case inf => exact Prod.ext (toNat_signMask_or x _ (by decide)) rfl
  case underflow =>
    rw [BitVec.toNat_eq, hexp]
    change _ = 0 ↔ m < 2 ^ 23
    omega
  case tiny => simp only [Prod.map, id, ne_eq, hzero]

/-- R120: the one-word form of NextAfter(S, x, y). -/
theorem nextAfterS_refines {c : Config} (hc : c.wf = true) (x y : Word) :
    Prod.map BitVec.toNat id (nextAfterS c x y) = nextAfter c .S x.toNat y.toNat := by
  have hF := fmt_ok c hc .S
  rw [nextAfter_eq_cascade hF]
  simp only [nextAfterS, signedMag_word]
  refine map_ite_eq_ite (or_congr (nan_binary32_iff x) (nan_binary32_iff y)) (fun _ => ?nan) fun hnan =>
    map_ite_eq_ite Iff.rfl (fun _ => rfl) fun hne =>
    map_ite_eq_ite (zero_binary32_iff x) (fun _ => ?zero) fun h0 => ?step
  case nan =>
    have hr : (nanAdd c .S x.toNat y.toNat).1 < 2 ^ 32 := nanAdd_lt hc .S x.isLt y.isLt
    exact Prod.ext (Nat.mod_eq_of_lt hr) rfl
  case zero => exact Prod.ext ((toNat_signMask_or y 1 (by decide)).trans (ofMag_binary32 y 1).symm) rfl
  case step =>
    rw [not_or, Bool.not_eq_true, Bool.not_eq_true] at hnan
    obtain ⟨hx, hy⟩ := hnan
    refine ending_binary32_by_mag c ?_ (steppedMag_le hF hx hy hne)
    exact toNat_stepped_eq_ofMag (n := 31) hF rfl rfl hx hy hne h0

end Sys2Proof

namespace Sys2Proof.Machine

/-- A command that answers `p` answers every `q` that `p` is, seen as a number. -/
theorem respond_map_toNat {n : Nat} {s : State} {p : BitVec n × FlagBits} {q : Pattern × FlagBits}
    (h : Prod.map BitVec.toNat id p = q) : s.respond p.1.toNat p.2 = s.answeredRaising q.1 q.2 := by
  subst h
  exact respond_eq_answeredRaising s _ _

/-- Settles O31, from the agreement of the two cascades. -/
theorem nextafterBinary32Refines : Obligations.NextafterBinary32Refines := by
  unfold Obligations.NextafterBinary32Refines
  intro x y s hc
  exact congrArg _ (respond_map_toNat (nextAfterS_refines hc x y))

end Sys2Proof.Machine
end

section
/-! PROOFS. The two-word form of NEXTAFTER answers the seven steps on format D (O32): the words side by side are the
pattern, and step 4 with its carry or borrow is plus or minus one on it (42_nextafter.md R121). -/

namespace Sys2Proof
open Machine

theorem infMag_binary64 : Fmt.binary64.infMag = 0x7ff0000000000000 := by decide

theorem toNat_eq_words (d : DWord) : d.toNat = (hiWord d).toNat * 2 ^ 32 + (loWord d).toNat := by
  rw [← joinWords_toNat, joinWords_hi_lo]

theorem ofMag_binary64 (x : DWord) (m : Nat) :
    Fmt.binary64.ofMag (Fmt.binary64.sign x.toNat) m = (hiWord x).toNat / 2 ^ 31 * 2 ^ 63 + m := by
  rw [Fmt.ofMag_sign_of_nb_zero rfl rfl x.isLt m, hiWord_toNat, Nat.div_div_eq_div_mul, ← Nat.pow_add]

/-- The magnitude of a binary64 pattern, as R121 reads it off the words. -/
theorem mag_binary64 (d : DWord) :
    Fmt.binary64.mag d.toNat = (hiWord d &&& 0x7fffffff).toNat * 2 ^ 32 + (loWord d).toNat := by
  have hlo := (loWord d).isLt
  rw [Fmt.mag_of_nb_zero rfl, field_zero, toNat_and_magMask, toNat_eq_words d]
  change _ % 2 ^ 63 = _
  omega

theorem sign_binary64 (d : DWord) : (hiWord d).getLsbD 31 = Fmt.binary64.sign d.toNat := by
  rw [BitVec.getLsbD, hiWord_toNat, Nat.testBit_div_two_pow]
  rfl

theorem signedMag_words (d : DWord) :
    signedMag ((hiWord d).getLsbD 31) ((hiWord d &&& 0x7fffffff).toNat * 2 ^ 32 + (loWord d).toNat) =
      Fmt.binary64.ord d.toNat := by
  rw [ord_eq_signedMag, mag_binary64, sign_binary64]

theorem nan_binary64_iff (d : DWord) :
    isNanWords (hiWord d &&& 0x7fffffff) (loWord d) = true ↔ Fmt.binary64.isNan d.toNat = true := by
  have hF : Fmt.binary64.Ok := fmt_ok .default rfl .D
  have hlo := (loWord d).isLt
  rw [hF.isNan_iff_mag, mag_binary64, infMag_binary64, isNanWords, Bool.or_eq_true, Bool.and_eq_true,
    decide_eq_true_iff, decide_eq_true_iff, decide_eq_true_iff, gt_iff_lt, BitVec.lt_def, BitVec.toNat_eq, ne_eq,
    BitVec.toNat_eq]
  change 0x7ff00000 < _ ∨ _ = 0x7ff00000 ∧ ¬_ = 0 ↔ _
  omega

theorem word_or_eq_zero_iff (a b : Word) : a ||| b = 0 ↔ a.toNat = 0 ∧ b.toNat = 0 :=
  BitVec.or_eq_zero_iff.trans (and_congr BitVec.toNat_eq BitVec.toNat_eq)

theorem zero_binary64_iff (d : DWord) :
    hiWord d &&& 0x7fffffff ||| loWord d = 0 ↔ Fmt.binary64.mag d.toNat = 0 := by
  rw [mag_binary64, word_or_eq_zero_iff]
  omega

/-- R121: the carry and the borrow between the words make the step of the whole pattern. -/
theorem joinWords_stepWords (outward : Bool) (h l : Word) :
    joinWords (stepWords outward h l).1 (stepWords outward h l).2 =
      if outward then joinWords h l + 1 else joinWords h l - 1 := by
  have hd := joinWords_toNat h l
  apply BitVec.eq_of_toNat_eq
  rw [joinWords_toNat]
  cases outward with
  | true =>
    simp only [stepWords, if_true]
    split <;> bv_omega
  | false =>
    simp only [stepWords, Bool.false_eq_true, if_false]
    split <;> bv_omega

/-- The exponent field of the high word, in place, by the bits below its top bit. -/
theorem toNat_expMaskD_of_eq {h : Word} {q k : Nat} (hh : h.toNat = q * 2 ^ 31 + k) (hk : k < 2 ^ 31) :
    (h &&& 0x7ff00000).toNat = k / 2 ^ 20 * 2 ^ 20 := by
  rw [toNat_and_expMaskD]
  omega

/-- R121: steps 5 to 7 on the stepped words `h` and `l`, by their magnitude `m`. -/
theorem ending_binary64_by_mag (c : Config) {x : DWord} {h l : Word} {m : Nat}
    (hw : (joinWords h l).toNat = Fmt.binary64.ofMag (Fmt.binary64.sign x.toNat) m) (hm : m ≤ Fmt.binary64.infMag) :
    Prod.map BitVec.toNat id
      (if h &&& 0x7ff00000 = 0x7ff00000 then
          (joinWords ((hiWord x &&& 0x80000000) ||| 0x7ff00000) 0x00000000, overflowFlags)
        else if h &&& 0x7ff00000 = 0 then
          (joinWords h l, underflowFlags c (decide ((h &&& 0x7fffffff) ||| l ≠ 0)))
        else (joinWords h l, 0)) =
      (Fmt.binary64.ofMag (Fmt.binary64.sign x.toNat) m, stepFlags c Fmt.binary64 m) := by
  rw [ofMag_stepFlags_eq_ite]
  rw [ofMag_binary64] at hw
  rw [infMag_binary64] at hm ⊢
  have hexp : (h &&& 0x7ff00000).toNat = m / 2 ^ 32 / 2 ^ 20 * 2 ^ 20 := by
    have hl := l.isLt
    rw [joinWords_toNat] at hw
    exact toNat_expMaskD_of_eq (q := (hiWord x).toNat / 2 ^ 31) (by omega) (by omega)
  have hzero : (h &&& 0x7fffffff) ||| l = 0 ↔ m = 0 := by
    have hl := l.isLt
    rw [joinWords_toNat] at hw
    rw [word_or_eq_zero_iff, toNat_and_magMask]
    omega
  rw [ofMag_binary64, ofMag_binary64, ← hw]
  refine map_ite_eq_ite ?overflow (fun _ => ?inf) fun _ => map_ite_eq_ite ?underflow (fun _ => ?tiny) fun _ => rfl
  case overflow =>
    rw [BitVec.toNat_eq, hexp]
    change _ = 0x7ff00000 ↔ _
    omega
  case inf =>
    refine Prod.ext ?_ rfl
    change (joinWords _ _).toNat = _
    rw [joinWords_toNat, toNat_signMask_or _ _ (by decide)]
    change (_ + 0x7ff00000) * 2 ^ 32 + 0 = _
    omega
  case underflow =>
    rw [BitVec.toNat_eq, hexp]
    change _ = 0 ↔ m < 2 ^ 52
    omega
  case tiny => simp only [Prod.map, id, ne_eq, hzero]

/-- R121: the two-word form of NextAfter(D, x, y). -/
theorem nextAfterD_refines {c : Config} (hc : c.wf = true) (x y : DWord) :
    Prod.map BitVec.toNat id (nextAfterD c x y) = nextAfter c .D x.toNat y.toNat := by
  have hF := fmt_ok c hc .D
  rw [nextAfter_eq_cascade hF]
  simp only [nextAfterD, signedMag_words, Bool.or_eq_true]
  refine map_ite_eq_ite (or_congr (nan_binary64_iff x) (nan_binary64_iff y)) (fun _ => ?nan) fun hnan =>
    map_ite_eq_ite Iff.rfl (fun _ => rfl) fun hne =>
    map_ite_eq_ite (zero_binary64_iff x) (fun _ => ?zero) fun h0 => ?step
  case nan =>
    have hr : (nanAdd c .D x.toNat y.toNat).1 < 2 ^ 64 := nanAdd_lt hc .D x.isLt y.isLt
    exact Prod.ext (Nat.mod_eq_of_lt hr) rfl
  case zero =>
    refine Prod.ext ?_ rfl
    change (joinWords _ _).toNat = Fmt.binary64.ofMag (Fmt.binary64.sign _) 1
    rw [joinWords_toNat, toNat_and_signMask, ofMag_binary64]
    change _ * 2 ^ 32 + 1 = _
    omega
  case step =>
    rw [not_or, Bool.not_eq_true, Bool.not_eq_true] at hnan
    obtain ⟨hx, hy⟩ := hnan
    refine ending_binary64_by_mag c ?_ (steppedMag_le hF hx hy hne)
    rw [joinWords_stepWords, joinWords_hi_lo, sign_binary64]
    exact toNat_stepped_eq_ofMag (n := 63) hF rfl rfl hx hy hne h0

end Sys2Proof

namespace Sys2Proof.Machine

/-- Settles O32, from the agreement of the two cascades. -/
theorem nextafterBinary64Refines : Obligations.NextafterBinary64Refines := by
  unfold Obligations.NextafterBinary64Refines
  intro x y s hc
  exact congrArg _ (respond_map_toNat (nextAfterD_refines hc x y))

end Sys2Proof.Machine
end

section
/-! PROOFS. The field-level form of NEXTAFTER.X answers the seven steps on format X (O33): the two mantissa words below
the leading bit are the fraction, and the step with its carries is plus or minus one on the magnitude (42_nextafter.md
R122). -/

namespace Sys2Proof
open Machine

/-- Bits set in the high part of a concatenation. -/
theorem cat_or {b len : Nat} (hb : b < 2 ^ len) (a k : Nat) : cat (a ||| k) len b = cat a len b ||| k * 2 ^ len := by
  apply Nat.eq_of_testBit_eq
  intro i
  rw [Nat.testBit_or, testBit_cat hb, testBit_cat hb, Nat.testBit_mul_two_pow]
  by_cases hi : i < len
  · simp [hi]
  · simp [hi, Nat.le_of_not_lt hi]

theorem or_eq_zero_iff_cat (a b len : Nat) : a ||| b = 0 ↔ cat a len b = 0 := by
  rw [Nat.or_eq_zero_iff, cat, Nat.add_eq_zero_iff, Nat.mul_eq_zero]
  simp

namespace ExtLayout
variable (x : ExtLayout) (v : Pattern)

theorem mask_trailW_div : mask x.trailW / 2 ^ x.manlW = mask x.manhW := by
  have hcat : mask x.trailW = cat (mask x.manhW) x.manlW (mask x.manlW) := by
    have hh := Nat.two_pow_pos x.manhW
    obtain ⟨k, hk⟩ : ∃ k, 2 ^ x.manhW = k + 1 := ⟨2 ^ x.manhW - 1, by omega⟩
    have := Nat.two_pow_pos x.manlW
    rw [mask, mask, mask, cat, trailW, Nat.pow_add, hk, Nat.add_mul, Nat.add_sub_cancel]
    omega
  rw [hcat, cat_div (mask_lt _)]

/-- R122: the high mantissa word without the leading bit is the high part of the fraction. -/
theorem fracHigh_eq_div : x.fracHigh v = (Fmt.extended x).frac v / 2 ^ x.manlW := by
  have htrail : (Fmt.extended x).trail v / 2 ^ x.manlW = x.manh v := by
    rw [← cat_div (a := x.manh v) (field_lt v 0 x.manlW)]
    exact congrArg (· / 2 ^ x.manlW) (x.cat_manh_manl v).symm
  rw [Fmt.frac, Nat.and_div_two_pow, Nat.xor_div_two_pow, htrail]
  change _ = _ &&& (mask x.trailW / _ ^^^ x.nbit * 2 ^ x.manlW / _)
  rw [mask_trailW_div, Nat.mul_div_cancel _ (Nat.two_pow_pos _), fracHigh]

variable {x}

theorem fracW_extended (hx : x.wf = true) : (Fmt.extended x).fracW = x.fracHighW + x.manlW := by
  obtain ⟨-, hh, -, -⟩ := x.wf_iff.1 hx
  simp only [Fmt.fracW, Fmt.extended, fracHighW, trailW, ne_eq, Nat.mul_eq_zero, (Nat.two_pow_pos _).ne', or_false]
  split <;> omega

theorem extended_ok (hx : x.wf = true) : (Fmt.extended x).Ok := fmt_ok { Config.default with ext := x } hx .X

/-- R122: the low mantissa word is the low part of the fraction. -/
theorem manl_eq_mod (hx : x.wf = true) : x.manl v = (Fmt.extended x).frac v % 2 ^ x.manlW := by
  have h := field_field_zero (lo := 0) (len := x.manlW) (n := (Fmt.extended x).fracW)
    (by rw [fracW_extended hx]; omega) v
  rw [(extended_ok hx).frac_eq, manl, ← h, field_zero]

/-- R122: the two mantissa words below the leading bit make the fraction. -/
theorem cat_fracHigh_manl (hx : x.wf = true) : cat (x.fracHigh v) x.manlW (x.manl v) = (Fmt.extended x).frac v := by
  rw [fracHigh_eq_div, manl_eq_mod v hx, cat, Nat.div_add_mod']

theorem manl_lt : x.manl v < 2 ^ x.manlW := field_lt _ _ _

theorem fracHigh_lt (hx : x.wf = true) : x.fracHigh v < 2 ^ x.fracHighW := by
  have h := (extended_ok hx).frac_lt v
  rw [fracW_extended hx, Nat.add_comm, Nat.pow_add] at h
  rw [fracHigh_eq_div]
  exact Nat.div_lt_of_lt_mul h

/-- R122: no bit of the mantissa words below the leading bit is set exactly when the fraction is 0. -/
theorem fields_zero_iff_frac (hx : x.wf = true) : x.fracHigh v ||| x.manl v = 0 ↔ (Fmt.extended x).frac v = 0 := by
  rw [or_eq_zero_iff_cat _ _ x.manlW, cat_fracHigh_manl v hx]

/-- The number three fields stand for, with the fraction below the exponent field. -/
theorem fieldsMag_eq_cat (hx : x.wf = true) (w : ExtFields) :
    x.fieldsMag w = cat w.e (Fmt.extended x).fracW (cat w.fh x.manlW w.ml) := by
  rw [fracW_extended hx]
  exact cat_assoc ..

theorem mag_eq_fieldsMag : x.mag v = x.fieldsMag (x.fields v) := rfl

theorem mag_extended (hx : x.wf = true) : x.mag v = (Fmt.extended x).mag v := by
  rw [mag_eq_fieldsMag, fieldsMag_eq_cat hx]
  exact congrArg (cat _ _) (cat_fracHigh_manl v hx)

theorem sign_extended : x.sign v = (Fmt.extended x).sign v := by rw [sign, Fmt.sign, extended_width]

theorem signedMag_extended (hx : x.wf = true) : signedMag (x.sign v) (x.mag v) = (Fmt.extended x).ord v := by
  rw [sign_extended, mag_extended v hx, ord_eq_signedMag]

theorem isNan_extended (hx : x.wf = true) : x.isNan v = true ↔ (Fmt.extended x).isNan v = true := by
  rw [Fmt.isNan_iff, isNan, Bool.and_eq_true, decide_eq_true_iff, decide_eq_true_iff, ne_eq, fields_zero_iff_frac v hx]
  rfl

theorem zero_extended_iff (hx : x.wf = true) :
    x.exp v = 0 ∧ x.fracHigh v ||| x.manl v = 0 ↔ (Fmt.extended x).mag v = 0 := by
  have hpos := (Nat.two_pow_pos (Fmt.extended x).fracW).ne'
  rw [fields_zero_iff_frac v hx, Fmt.mag, Nat.add_eq_zero_iff, Nat.mul_eq_zero, or_iff_left hpos]
  rfl

/-- R122: the four fields put together, NBIT by the exponent field, are the pattern asm makes (10_state.md R31). -/
theorem join_eq_asm (s : Bool) (e fh : Nat) {ml : Nat} (hml : ml < 2 ^ x.manlW) :
    x.join s e (fh ||| (if e ≠ 0 then x.nbit else 0)) ml = (Fmt.extended x).asm s e (cat fh x.manlW ml) := by
  rw [join_eq_cat_trail, cat_or hml, ite_mul, Nat.zero_mul]
  rfl

/-- R122: step 4 in either direction is one step of the magnitude, and the fields keep their widths. -/
theorem step_fields_spec (hx : x.wf = true) {b : Bool} {w : ExtFields} (h0 : (Fmt.extended x).mag v ≠ 0)
    (hw : (if b then x.stepUp (x.fields v) else x.stepDown (x.fields v)) = w) :
    w.ml < 2 ^ x.manlW ∧ w.fh < 2 ^ x.fracHighW ∧
      x.fieldsMag w = if b then (Fmt.extended x).mag v + 1 else (Fmt.extended x).mag v - 1 := by
  subst hw
  have hmag := mag_extended v hx
  rw [mag_eq_fieldsMag] at hmag
  have hfh : (x.fields v).fh < 2 ^ x.fracHighW := fracHigh_lt v hx
  have hml : (x.fields v).ml < 2 ^ x.manlW := manl_lt v
  cases b with
  | true =>
    obtain ⟨hm, hf, hl⟩ := x.stepUp_spec _ hfh hml
    exact ⟨hl, hf, hmag ▸ hm⟩
  | false =>
    obtain ⟨hm, hf, hl⟩ := x.stepDown_spec _ hfh hml (hmag ▸ h0)
    refine ⟨hl, hf, ?_⟩
    rw [if_neg Bool.false_ne_true, ← hmag, ← hm, Nat.add_sub_cancel]
    rfl

end ExtLayout

/-- R122: steps 5 to 7 on the stepped fields `w`, by their magnitude `m`. -/
theorem ending_extended_by_mag (c : Config) {x : ExtLayout} (hx : x.wf = true) (s : Bool) {w : ExtFields} {m : Nat}
    (hml : w.ml < 2 ^ x.manlW) (hfh : w.fh < 2 ^ x.fracHighW) (hw : x.fieldsMag w = m)
    (hm : m ≤ (Fmt.extended x).infMag) :
    (if w.e = mask x.expW then (x.join s (mask x.expW) x.nbit 0, overflowFlags)
      else if w.e = 0 then
        (x.join s w.e (w.fh ||| (if w.e ≠ 0 then x.nbit else 0)) w.ml,
          underflowFlags c (decide (w.fh ||| w.ml ≠ 0)))
      else (x.join s w.e (w.fh ||| (if w.e ≠ 0 then x.nbit else 0)) w.ml, 0)) =
      ((Fmt.extended x).ofMag s m, stepFlags c (Fmt.extended x) m) := by
  have hlow : cat w.fh x.manlW w.ml < 2 ^ (Fmt.extended x).fracW := by
    rw [ExtLayout.fracW_extended hx]
    exact cat_lt hfh hml
  have hcat := (ExtLayout.fieldsMag_eq_cat hx w).symm.trans hw
  have he : w.e = m / 2 ^ (Fmt.extended x).fracW := by rw [← hcat, cat_div hlow]
  have hf : cat w.fh x.manlW w.ml = m % 2 ^ (Fmt.extended x).fracW := by rw [← hcat, cat_mod hlow]
  have hjoin : x.join s w.e (w.fh ||| (if w.e ≠ 0 then x.nbit else 0)) w.ml = (Fmt.extended x).ofMag s m := by
    rw [ExtLayout.join_eq_asm _ _ _ hml, hf, he, Fmt.ofMag]
  have hinf : x.join s (mask x.expW) x.nbit 0 = (Fmt.extended x).ofMag s (Fmt.extended x).infMag := by
    have hpos : mask x.expW ≠ 0 := by
      have h2 : 2 ≤ mask x.expW := (ExtLayout.extended_ok hx).two_le_expMax
      omega
    have h := ExtLayout.join_eq_asm s (mask x.expW) 0 (Nat.two_pow_pos x.manlW)
    rw [if_pos hpos, Nat.zero_or, cat, Nat.zero_mul] at h
    rw [h, ← Fmt.infPat_eq_ofMag]
    rfl
  have hover : w.e = mask x.expW ↔ m = (Fmt.extended x).infMag := by
    rw [he]
    exact Fmt.div_fracPow_eq_expMax_iff hm
  rw [hjoin, hinf, ofMag_stepFlags_eq_ite]
  refine map_ite_eq_ite (g := id) hover (fun _ => rfl) fun _ =>
    map_ite_eq_ite (g := id) (he ▸ Fmt.div_fracPow_eq_zero_iff) (fun hsub => ?tiny) fun _ => rfl
  case tiny =>
    rw [Nat.mod_eq_of_lt hsub] at hf
    simp only [id, ne_eq, or_eq_zero_iff_cat _ _ x.manlW, hf]

/-- R122: the field-level form of NextAfter(X, x, y). -/
theorem nextAfterX_refines {c : Config} (hc : c.wf = true) (x y : Pattern) : nextAfterX c x y = nextAfter c .X x y := by
  have hF := fmt_ok c hc .X
  rw [nextAfter_eq_cascade hF]
  simp only [nextAfterX, ExtLayout.signedMag_extended _ hc, Bool.or_eq_true]
  refine map_ite_eq_ite (g := id) (or_congr (ExtLayout.isNan_extended x hc) (ExtLayout.isNan_extended y hc))
    (fun _ => rfl) fun hnan => map_ite_eq_ite (g := id) Iff.rfl (fun _ => rfl) fun hne =>
    map_ite_eq_ite (g := id) (ExtLayout.zero_extended_iff x hc) (fun _ => ?zero) fun h0 => ?step
  case zero =>
    obtain ⟨-, -, hml, -⟩ := c.ext.wf_iff.1 hc
    have hjoin := ExtLayout.join_eq_asm (x := c.ext) ((Fmt.extended c.ext).sign y) 0 0
      (Nat.one_lt_two_pow (Nat.pos_iff_ne_zero.1 hml))
    rw [cat, Nat.zero_mul, Nat.zero_add, if_neg (by simp), Nat.or_zero] at hjoin
    rw [ExtLayout.sign_extended, ← hF.minSub_eq_ofMag]
    exact Prod.ext hjoin rfl
  case step =>
    rw [not_or, Bool.not_eq_true, Bool.not_eq_true] at hnan
    obtain ⟨hx, hy⟩ := hnan
    have hle := steppedMag_le hF hx hy hne
    rw [steppedMag_eq] at hle ⊢
    rw [ExtLayout.sign_extended]
    obtain ⟨hml, hfh, hmag⟩ := ExtLayout.step_fields_spec x hc h0 rfl
    exact ending_extended_by_mag c hc _ hml hfh hmag hle

end Sys2Proof

namespace Sys2Proof.Machine

/-- Settles O33, from the agreement of the two cascades. -/
theorem nextafterExtendedRefines : Obligations.NextafterExtendedRefines := by
  unfold Obligations.NextafterExtendedRefines
  intro x y s hc
  rw [← nextAfterX_refines hc, ← respond_eq_answeredRaising]
  rfl

end Sys2Proof.Machine
end

section
/-! PROOFS. What the NEXTAFTER command of a format answers, by the step of 42_nextafter.md R110 that ends it: NaN
results (O34, O35), equal operands (O36), a zero source (O37), the general step (O38 to O41), the flags (O42), and the
width of every answer (O46). -/

namespace Sys2Proof

theorem Fmt.isNan_iff_classOf (F : Fmt) (v : Pattern) : F.isNan v = true ↔ F.classOf v = .nan := decide_eq_true_iff

/-- 42_nextafter.md R127: every ending answers a pattern of the format. -/
theorem nextAfter_lt {c : Config} (hc : c.wf = true) {id : FormatId} {x y : Pattern} (hx : x < 2 ^ (c.fmt id).width)
    (hy : y < 2 ^ (c.fmt id).width) : (nextAfter c id x y).1 < 2 ^ (c.fmt id).width := by
  have hF := fmt_ok c hc id
  rw [nextAfter_eq_cascade hF]
  split_ifs with hnan heq hzero
  · exact nanAdd_lt hc id hx hy
  · exact hy
  · exact hF.ofMag_lt hF.one_lt_infMag.le
  · rw [not_or, Bool.not_eq_true, Bool.not_eq_true] at hnan
    exact hF.ofMag_lt (steppedMag_le hF hnan.1 hnan.2 heq)

/-- R123: the flags of steps 5 to 7 by the class of their result. -/
theorem stepFlags_by_class {F : Fmt} (hF : F.Ok) (c : Config) (s : Bool) {m : Nat} (hm : m ≤ F.infMag) :
    F.classOf (F.ofMag s m) = .infinity ∧ stepFlags c F m = 0x5 ∨
    F.classOf (F.ofMag s m) = .subnormal ∧ stepFlags c F m = 0x3 ∨
    F.classOf (F.ofMag s m) = .zero ∧ stepFlags c F m = (if c.ufOnZeroResult = true then 0x3 else 0x0) ∨
    F.classOf (F.ofMag s m) = .normal ∧ stepFlags c F m = 0x0 := by
  rw [hF.classOf_eq_magClass, hF.mag_ofMag hm, Fmt.magClass, stepFlags, if_neg (not_lt.2 hm)]
  by_cases hinf : m = F.infMag
  · exact .inl (by rw [if_pos hinf, if_pos hinf]; exact ⟨rfl, rfl⟩)
  · rw [if_neg hinf, if_neg hinf]
    by_cases hz : m = 0
    · subst hz
      refine .inr (.inr (.inl ⟨if_pos rfl, ?_⟩))
      simp [underflowFlags, flagUF, flagNX]
    · rw [if_neg hz]
      by_cases hsub : m < 2 ^ F.fracW
      · rw [if_pos hsub, if_pos hsub, underflowFlags, decide_eq_true hz]
        exact .inr (.inl ⟨rfl, rfl⟩)
      · rw [if_neg hsub, if_neg hsub]
        exact .inr (.inr (.inr ⟨rfl, rfl⟩))

end Sys2Proof

namespace Sys2Proof.Machine

/-- The command of a format answers NextAfter of the format. -/
theorem exec_nextafterOf {s : State} (hc : s.cfg.wf = true) (id : FormatId) {x y : Pattern}
    (hx : x < 2 ^ (s.cfg.fmt id).width) (hy : y < 2 ^ (s.cfg.fmt id).width) :
    exec (nextafterOf id x y) s =
      .next (s.answeredRaising (nextAfter s.cfg id x y).1 (nextAfter s.cfg id x y).2) := by
  cases id with
  | S =>
    have h := nextafterBinary32Refines (BitVec.ofNat 32 x) (BitVec.ofNat 32 y) s hc
    rwa [BitVec.toNat_ofNat, BitVec.toNat_ofNat, Nat.mod_eq_of_lt (show x < 2 ^ 32 from hx),
      Nat.mod_eq_of_lt (show y < 2 ^ 32 from hy)] at h
  | D =>
    have h := nextafterBinary64Refines (BitVec.ofNat 64 x) (BitVec.ofNat 64 y) s hc
    rwa [BitVec.toNat_ofNat, BitVec.toNat_ofNat, Nat.mod_eq_of_lt (show x < 2 ^ 64 from hx),
      Nat.mod_eq_of_lt (show y < 2 ^ 64 from hy)] at h
  | X => exact nextafterExtendedRefines x y s hc

theorem exec_nextafterOf_of_takesStep {s : State} (hc : s.cfg.wf = true) {id : FormatId} {x y : Pattern}
    (h : takesStep (s.cfg.fmt id) x y) :
    exec (nextafterOf id x y) s = .next (s.answeredRaising
      ((s.cfg.fmt id).ofMag ((s.cfg.fmt id).sign x) (steppedMag (s.cfg.fmt id) x y))
      (stepFlags s.cfg (s.cfg.fmt id) (steppedMag (s.cfg.fmt id) x y))) := by
  rw [exec_nextafterOf hc id h.1.1 h.2.1.1, nextAfter_of_takesStep (fmt_ok _ hc id) h]

theorem steppedMag_le_of_takesStep {F : Fmt} (hF : F.Ok) {x y : Pattern} (h : takesStep F x y) :
    steppedMag F x y ≤ F.infMag := by
  obtain ⟨⟨-, hx⟩, ⟨-, hy⟩, hne, -⟩ := h
  exact steppedMag_le hF hx hy hne

theorem exec_nextafterOf_of_nan {s : State} (hc : s.cfg.wf = true) {id : FormatId} {x y : Pattern}
    (hx : x < 2 ^ (s.cfg.fmt id).width) (hy : y < 2 ^ (s.cfg.fmt id).width)
    (hn : (s.cfg.fmt id).isNan x = true ∨ (s.cfg.fmt id).isNan y = true) :
    exec (nextafterOf id x y) s = .next (s.answeredRaising (nanAdd s.cfg id x y).1
      (if (nanAdd s.cfg id x y).2 = true then 0x8 else 0x0)) := by
  rw [exec_nextafterOf hc id hx hy, nextAfter_of_nan hn]
  rfl

/-- Settles O34, from properties P1 and P3 of NAN_ADD. -/
theorem nextafterOfNanIsNan : Obligations.NextafterOfNanIsNan := by
  unfold Obligations.NextafterOfNanIsNan
  intro s id x y hc hx hy hn
  have hnan : (s.cfg.fmt id).isNan x = true ∨ (s.cfg.fmt id).isNan y = true := by
    rwa [Fmt.isNan_iff_classOf, Fmt.isNan_iff_classOf]
  refine ⟨_, _, exec_nextafterOf_of_nan hc hx hy hnan, rfl, ?_, nanAdd_lt hc id hx hy⟩
  exact (Fmt.isNan_iff_classOf _ _).1 (nanAdd_isNan hc id hnan)

theorem testBit_nanAddDefault (F : Fmt) (x y : Pattern) (k : Nat) :
    (nanAddDefault F x y).1.testBit k =
      ((if F.isNan x then x else y).testBit k || decide (k = F.fracW - 1) || F.nb.testBit k) := by
  rw [nanAddDefault, Nat.testBit_or, Nat.testBit_or, quietBit, Nat.testBit_two_pow]
  simp only [eq_comm]

theorem isSignalling_iff (F : Fmt) (v : Pattern) :
    isSignalling F v = true ↔ F.classOf v = .nan ∧ v.testBit (F.fracW - 1) = false := by
  rw [isSignalling, Bool.and_eq_true, Fmt.isNan_iff_classOf, decide_eq_true_iff, quietBit, Nat.and_two_pow]
  cases v.testBit (F.fracW - 1) <;> simp

/-- Settles O35: the first NaN operand with two bits set. -/
theorem nanAddDefaultQuiets : Obligations.NanAddDefaultQuiets := by
  unfold Obligations.NanAddDefaultQuiets
  rintro s id x y n q hc hcfg hx hy hn rfl
  have hadd : nanAdd s.cfg id x y = nanAddDefault (s.cfg.fmt id) x y := by rw [nanAdd, hcfg]
  have hnan : (s.cfg.fmt id).isNan x = true ∨ (s.cfg.fmt id).isNan y = true := by
    rw [Fmt.isNan_iff_classOf, Fmt.isNan_iff_classOf]
    exact hn.imp (·.1) (·.2.1)
  have hfirst : (if (s.cfg.fmt id).isNan x then x else y) = n := by
    rcases hn with ⟨hxn, rfl⟩ | ⟨hxn, -, rfl⟩
    · exact if_pos ((Fmt.isNan_iff_classOf _ _).2 hxn)
    · exact if_neg (mt (Fmt.isNan_iff_classOf _ _).1 hxn)
  refine ⟨_, _, exec_nextafterOf_of_nan hc hx hy hnan, fun k => ?bits, ?signalling⟩
  case bits => rw [hadd, testBit_nanAddDefault, hfirst]
  case signalling => rw [hadd, nanAddDefault, Bool.or_eq_true, isSignalling_iff, isSignalling_iff]

/-- Settles O36: a value other than zero has one canonical pattern. -/
theorem nextafterOfEqualIsY : Obligations.NextafterOfEqualIsY := by
  unfold Obligations.NextafterOfEqualIsY
  intro s id x y hc ⟨hx, hxn⟩ ⟨hy, hyn⟩
  have hF := fmt_ok s.cfg hc id
  refine ⟨fun heq => ?answer, fun hcx hcy => ⟨fun heq => ?patterns, ?values⟩⟩
  case answer => rw [exec_nextafterOf hc id hx hy, nextAfter_of_eq hxn hyn heq]
  case patterns =>
    rw [hF.classOf_eq_zero_iff, hF.classOf_eq_zero_iff]
    by_cases h0 : (s.cfg.fmt id).mag x = 0
    · exact .inr ⟨h0, Fmt.ord_eq_zero_iff.1 (heq ▸ Fmt.ord_eq_zero_iff.2 h0)⟩
    · exact .inl (hF.eq_of_ord_eq hx hy hcx hcy h0 heq)
  case values =>
    rw [hF.classOf_eq_zero_iff, hF.classOf_eq_zero_iff]
    rintro (rfl | ⟨hx0, hy0⟩)
    · rfl
    · rw [Fmt.ord_eq_zero_iff.2 hx0, Fmt.ord_eq_zero_iff.2 hy0]

/-- Settles O37: step 3, whose result has magnitude 1. -/
theorem nextafterOfZeroIsMinSub : Obligations.NextafterOfZeroIsMinSub := by
  unfold Obligations.NextafterOfZeroIsMinSub
  intro s id x y hc ⟨hx, hxn⟩ ⟨hy, hyn⟩ hx0 hy0
  have hF := fmt_ok s.cfg hc id
  have hne : (s.cfg.fmt id).ord x ≠ (s.cfg.fmt id).ord y := fun h =>
    hy0 (Fmt.ord_eq_zero_iff.1 (h ▸ Fmt.ord_eq_zero_iff.2 hx0))
  refine ⟨?answer, fun h => ?differs⟩
  case answer =>
    rw [exec_nextafterOf hc id hx hy, nextAfter_of_zero hxn hyn hne hx0]
    rfl
  case differs =>
    rw [hF.minSub_eq_ofMag] at h
    rw [← h, hF.mag_ofMag hF.one_lt_infMag.le] at hx0
    exact one_ne_zero hx0

/-- Settles O38: the answer is the canonical pattern of the stepped magnitude. -/
theorem nextafterStepsMagnitudeByOne : Obligations.NextafterStepsMagnitudeByOne := by
  unfold Obligations.NextafterStepsMagnitudeByOne
  intro s id x y hc h
  have hF := fmt_ok s.cfg hc id
  have hm := steppedMag_le_of_takesStep hF h
  refine ⟨_, _, exec_nextafterOf_of_takesStep hc h, hF.sign_ofMag hm, hF.mag_ofMag hm, ?_, hF.canonical_ofMag hm⟩
  rwa [Fmt.infPat_eq_ofMag, hF.mag_ofMag le_rfl]

/-- Settles O39: only one magnitude is one step from the infinity's and no larger. -/
theorem nextafterOverflows : Obligations.NextafterOverflows := by
  unfold Obligations.NextafterOverflows
  intro s id x y hc h he
  have hF := fmt_ok s.cfg hc id
  have hinf := (Fmt.div_fracPow_eq_expMax_iff (steppedMag_le_of_takesStep hF h)).1 he
  have ⟨⟨_, hxn⟩, _, _, h0⟩ := h
  refine ⟨?source, ?answer⟩
  case source =>
    have hx := hF.isNan_eq_false_iff.1 hxn
    rw [hF.maxFin_eq_ofMag, hF.mag_ofMag (Nat.sub_le _ _)]
    rcases steppedMag_cases (y := y) h0 with hstep | hstep <;> omega
  case answer =>
    rw [exec_nextafterOf_of_takesStep hc h, hinf, stepFlags, if_pos rfl, Fmt.infPat_eq_ofMag]
    rfl

/-- Settles O40: below the smallest normal magnitude the stepped magnitude is the fraction. -/
theorem nextafterUnderflows : Obligations.NextafterUnderflows := by
  unfold Obligations.NextafterUnderflows
  intro s id x y hc h
  have hF := fmt_ok s.cfg hc id
  have hlt := hF.fracPow_lt_infMag
  have ⟨_, _, _, h0⟩ := h
  have hcases := steppedMag_cases (y := y) h0
  rw [exec_nextafterOf_of_takesStep hc h]
  refine ⟨fun he => ⟨?answer, fun hz => ?source⟩, fun hsub he => ?minNorm⟩
  case answer =>
    have hm := Fmt.div_fracPow_eq_zero_iff.1 he
    rw [Fmt.ofMag, he, stepFlags, if_neg (by omega), if_pos hm, underflowFlags]
    by_cases hz : steppedMag (s.cfg.fmt id) x y = 0 <;> cases s.cfg.ufOnZeroResult <;> simp [hz, flagUF, flagNX]
  case source =>
    rw [hF.minSub_eq_ofMag, hF.mag_ofMag hF.one_lt_infMag.le]
    omega
  case minNorm =>
    obtain ⟨-, hx⟩ := hF.classOf_eq_subnormal_iff.1 hsub
    have hge : 2 ^ (s.cfg.fmt id).fracW ≤ steppedMag (s.cfg.fmt id) x y := by
      rw [← not_lt, ← Fmt.div_fracPow_eq_zero_iff, he]
      exact one_ne_zero
    have hm : steppedMag (s.cfg.fmt id) x y = 2 ^ (s.cfg.fmt id).fracW := by omega
    rw [hm, stepFlags, if_neg hlt.ne, if_neg (lt_irrefl _), Fmt.minNorm_eq_ofMag]

/-- Settles O41: the stepped magnitude lies from the smallest normal one to below the infinity's. -/
theorem nextafterReachesNormal : Obligations.NextafterReachesNormal := by
  unfold Obligations.NextafterReachesNormal
  intro s id x y hc h hmax hzero
  have hF := fmt_ok s.cfg hc id
  have hle := steppedMag_le_of_takesStep hF h
  have ⟨_, _, _, h0⟩ := h
  have hinf : steppedMag (s.cfg.fmt id) x y ≠ (s.cfg.fmt id).infMag := mt (Fmt.div_fracPow_eq_expMax_iff hle).2 hmax
  have hnorm : ¬steppedMag (s.cfg.fmt id) x y < 2 ^ (s.cfg.fmt id).fracW := mt Fmt.div_fracPow_eq_zero_iff.2 hzero
  refine ⟨_, ?answer, rfl, ?field, ?normal, fun hx => ?maxFin⟩
  case answer =>
    rw [exec_nextafterOf_of_takesStep hc h, stepFlags, if_neg hinf, if_neg hnorm]
    rfl
  case field =>
    have := Fmt.div_fracPow_le hle
    omega
  case normal =>
    have hmag := hF.mag_ofMag (s := (s.cfg.fmt id).sign x) hle
    rw [Fmt.ofMag] at hmag
    rw [hF.classOf_eq_normal_iff, hmag]
    omega
  case maxFin =>
    rw [hF.classOf_eq_infinity_iff] at hx
    have hm : steppedMag (s.cfg.fmt id) x y = (s.cfg.fmt id).infMag - 1 := by
      have := steppedMag_cases (y := y) h0
      omega
    rw [hF.maxFin_eq_ofMag, ← hm, Fmt.ofMag]

/-- Settles O42, ending by ending. -/
theorem nextafterFlagsByEndingStep : Obligations.NextafterFlagsByEndingStep := by
  unfold Obligations.NextafterFlagsByEndingStep
  rintro s id x y F hc rfl hx hy
  have hF := fmt_ok s.cfg hc id
  refine ⟨_, _, exec_nextafterOf hc id hx hy, fun hn => ?nan, fun ⟨_, hxn⟩ ⟨_, hyn⟩ heq => ?equal,
    fun ⟨_, hxn⟩ ⟨_, hyn⟩ hne h0 => ?zero, fun h => ?step⟩
  case nan =>
    rw [← Fmt.isNan_iff_classOf, ← Fmt.isNan_iff_classOf] at hn
    rw [nextAfter_of_nan hn]
    rfl
  case equal =>
    rw [nextAfter_of_eq hxn hyn heq]
    exact ⟨rfl, rfl⟩
  case zero =>
    rw [nextAfter_of_zero hxn hyn hne h0, hF.minSub_eq_ofMag]
    refine ⟨?_, rfl⟩
    rw [hF.classOf_eq_subnormal_iff, hF.mag_ofMag hF.one_lt_infMag.le]
    exact ⟨one_ne_zero, hF.two_le_fracPow⟩
  case step =>
    rw [nextAfter_of_takesStep hF h]
    exact stepFlags_by_class hF s.cfg _ (steppedMag_le_of_takesStep hF h)

/-- Settles O46, from the width of every ending. -/
theorem nextafterAnswersPatternOfFormat : Obligations.NextafterAnswersPatternOfFormat := by
  unfold Obligations.NextafterAnswersPatternOfFormat
  intro s id x y hc hx hy
  exact ⟨_, _, exec_nextafterOf hc id hx hy, nextAfter_lt hc hx hy⟩

end Sys2Proof.Machine
end

section
/-! PROOFS. The laws of 42_nextafter.md R124 and R125: the answer is the neighbour of `x` on the side of `y` (O43), a
step and a step back cancel (O44), and the leading bit of an operand is not read (O45). All three rest on one fact, that
the answer is the canonical pattern of the neighbouring value. -/

namespace Sys2Proof
open Machine

namespace Fmt
variable {F : Fmt} {v w : Pattern}

theorem abs_ord_le {k : Nat} (h : F.mag v ≤ k) : -(k : Int) ≤ F.ord v ∧ F.ord v ≤ k := by
  rw [ord]
  split <;> omega

theorem abs_ord_lt {k : Nat} (h : F.mag v < k) : -(k : Int) < F.ord v ∧ F.ord v < k := by
  rw [ord]
  split <;> omega

theorem mag_congr (he : F.expf v = F.expf w) (hf : F.frac v = F.frac w) : F.mag v = F.mag w := by rw [mag, mag, he, hf]

theorem ord_congr (hs : F.sign v = F.sign w) (hm : F.mag v = F.mag w) : F.ord v = F.ord w := by rw [ord, ord, hs, hm]

theorem Ok.isNumber_ofMag (h : F.Ok) (s : Bool) {m : Nat} (hm : m ≤ F.infMag) : isNumber F (F.ofMag s m) :=
  ⟨h.ofMag_lt hm, h.isNan_eq_false_iff.2 ((h.mag_ofMag hm).le.trans hm)⟩

theorem Ok.isNumber_infPat (h : F.Ok) (s : Bool) : isNumber F (F.infPat s) :=
  F.infPat_eq_ofMag s ▸ h.isNumber_ofMag s le_rfl

theorem Ok.ord_infPat (h : F.Ok) (s : Bool) : F.ord (F.infPat s) = signedMag s F.infMag := by
  rw [infPat_eq_ofMag, h.ord_ofMag le_rfl]

end Fmt

section Neighbour
variable {c : Config} {id : FormatId} {x y : Pattern}

/-- R124 (c), R125: the answer is a canonical number, one value from `x` toward `y`. -/
theorem nextAfter_neighbour (hF : (c.fmt id).Ok) (hx : isNumber (c.fmt id) x) (hy : isNumber (c.fmt id) y)
    (hne : (c.fmt id).ord x ≠ (c.fmt id).ord y) :
    isNumber (c.fmt id) (nextAfter c id x y).1 ∧ (c.fmt id).canonical (nextAfter c id x y).1 = true ∧
      (c.fmt id).ord (nextAfter c id x y).1 =
        if (c.fmt id).ord x < (c.fmt id).ord y then (c.fmt id).ord x + 1 else (c.fmt id).ord x - 1 := by
  obtain ⟨s, m, hm, hr, hord⟩ := nextAfter_of_ord_ne hF hx.2 hy.2 hne
  rw [hr, hF.ord_ofMag hm]
  exact ⟨hF.isNumber_ofMag s hm, hF.canonical_ofMag hm, hord⟩

/-- R124 (c): toward an infinity the value of a number moves by one, down or up with the sign of the infinity. -/
theorem nextAfter_toward_inf (hF : (c.fmt id).Ok) (hx : isNumber (c.fmt id) x) {s : Bool}
    (hne : (c.fmt id).ord x ≠ signedMag s (c.fmt id).infMag) :
    isNumber (c.fmt id) (nextAfter c id x ((c.fmt id).infPat s)).1 ∧
      (c.fmt id).canonical (nextAfter c id x ((c.fmt id).infPat s)).1 = true ∧
      (c.fmt id).ord (nextAfter c id x ((c.fmt id).infPat s)).1 = (c.fmt id).ord x + signedMag s 1 := by
  obtain ⟨hlo, hhi⟩ := Fmt.abs_ord_le (hF.isNan_eq_false_iff.1 hx.2)
  have hord := hF.ord_infPat s
  obtain ⟨hnum, hcan, hr⟩ := nextAfter_neighbour hF hx (hF.isNumber_infPat s) (hord ▸ hne)
  refine ⟨hnum, hcan, hr.trans ?_⟩
  rw [hord]
  cases s with
  | true => exact if_neg (not_lt.2 hlo)
  | false => exact if_pos (lt_of_le_of_ne hhi hne)

/-- R124 (f): from a finite `x` toward one infinity and back toward the other leads to the value of `x`. -/
theorem nextAfter_back (hF : (c.fmt id).Ok) (hx : isNumber (c.fmt id) x) (hfin : (c.fmt id).mag x < (c.fmt id).infMag)
    (up : Bool) {t : Pattern} (ht : (nextAfter c id x ((c.fmt id).infPat (!up))).1 = t) :
    isNumber (c.fmt id) t ∧ isNumber (c.fmt id) (nextAfter c id t ((c.fmt id).infPat up)).1 ∧
      (c.fmt id).canonical (nextAfter c id t ((c.fmt id).infPat up)).1 = true ∧
      (c.fmt id).ord (nextAfter c id t ((c.fmt id).infPat up)).1 = (c.fmt id).ord x := by
  obtain ⟨hlo, hhi⟩ := Fmt.abs_ord_lt hfin
  have hthere : (c.fmt id).ord x ≠ signedMag (!up) (c.fmt id).infMag := by
    cases up with
    | true => exact hhi.ne
    | false => exact hlo.ne'
  obtain ⟨hnum, -, hord⟩ := nextAfter_toward_inf hF hx hthere
  rw [ht] at hnum hord
  have hback : (c.fmt id).ord t ≠ signedMag up (c.fmt id).infMag := by
    rw [hord]
    cases up <;> simp [signedMag] <;> omega
  obtain ⟨hnum', hcan, hord'⟩ := nextAfter_toward_inf hF hnum hback
  refine ⟨hnum, hnum', hcan, ?_⟩
  rw [hord', hord]
  cases up <;> simp [signedMag]

/-- R125: the answer depends on sign, exponent field and fraction of operands of different value. -/
theorem nextAfter_congr {x' y' : Pattern} (hF : (c.fmt id).Ok) (hx : (c.fmt id).isNan x = false)
    (hy : (c.fmt id).isNan y = false) (hne : (c.fmt id).ord x ≠ (c.fmt id).ord y)
    (hsx : (c.fmt id).sign x' = (c.fmt id).sign x) (hmx : (c.fmt id).mag x' = (c.fmt id).mag x)
    (hsy : (c.fmt id).sign y' = (c.fmt id).sign y) (hmy : (c.fmt id).mag y' = (c.fmt id).mag y) :
    nextAfter c id x' y' = nextAfter c id x y := by
  have hox := Fmt.ord_congr hsx hmx
  have hoy := Fmt.ord_congr hsy hmy
  have hx' : (c.fmt id).isNan x' = false := by rwa [hF.isNan_eq_false_iff, hmx, ← hF.isNan_eq_false_iff]
  have hy' : (c.fmt id).isNan y' = false := by rwa [hF.isNan_eq_false_iff, hmy, ← hF.isNan_eq_false_iff]
  have hne' : (c.fmt id).ord x' ≠ (c.fmt id).ord y' := by rwa [hox, hoy]
  by_cases h0 : (c.fmt id).mag x = 0
  · rw [nextAfter_of_zero hx' hy' hne' (hmx.trans h0), nextAfter_of_zero hx hy hne h0, hsy]
  · have hstep : steppedMag (c.fmt id) x' y' = steppedMag (c.fmt id) x y := by
      rw [steppedMag_eq, steppedMag_eq, hox, hoy, hsx, hmx]
    rw [nextAfter_of_step hF hx' hy' hne' (hmx ▸ h0), nextAfter_of_step hF hx hy hne h0, hsx, hstep]

end Neighbour

end Sys2Proof

namespace Sys2Proof.Machine

/-- Settles O43: between `x` and `y` there is room for one step, their values being integers. -/
theorem nextafterIsAdjacentTowardY : Obligations.NextafterIsAdjacentTowardY := by
  unfold Obligations.NextafterIsAdjacentTowardY
  intro s id x y hc hx hy hne
  obtain ⟨hnum, -, hord⟩ := nextAfter_neighbour (fmt_ok s.cfg hc id) hx hy hne
  refine ⟨_, _, exec_nextafterOf hc id hx.1 hy.1, hnum, fun hlt => ?up, fun hlt => ?down⟩
  case up =>
    rw [if_pos hlt] at hord
    omega
  case down =>
    rw [if_neg hlt.not_gt] at hord
    omega

/-- Settles O44: the way back leads to the value of `x`, which has one canonical pattern. -/
theorem nextafterRoundTrip : Obligations.NextafterRoundTrip := by
  unfold Obligations.NextafterRoundTrip
  rintro s s' id x up F hc hcfg rfl hx hcx hclass
  have hF := fmt_ok s.cfg hc id
  have hmag : (s.cfg.fmt id).mag x ≠ 0 ∧ (s.cfg.fmt id).mag x < (s.cfg.fmt id).infMag := by
    have hpow := Nat.two_pow_pos (s.cfg.fmt id).fracW
    have hlt := hF.fracPow_lt_infMag
    rw [hF.classOf_eq_subnormal_iff, hF.classOf_eq_normal_iff] at hclass
    omega
  have hnum : isNumber (s.cfg.fmt id) x := ⟨hx, hF.isNan_eq_false_iff.2 hmag.2.le⟩
  obtain ⟨ht, hr, hcr, hord⟩ := nextAfter_back hF hnum hmag.2 up rfl
  have hinf (b : Bool) := (hF.isNumber_infPat b).1
  have hback := exec_nextafterOf (s := s') (hcfg ▸ hc) id (hcfg ▸ ht.1) (hcfg ▸ hinf up)
  rw [hcfg, ← hF.eq_of_ord_eq hx hr.1 hcx hcr hmag.1 hord.symm] at hback
  exact ⟨_, _, _, exec_nextafterOf hc id hx (hinf _), hback⟩

/-- Settles O45: magnitude and sign are all that steps 3 to 7 read. -/
theorem nextafterIgnoresLeadingBit : Obligations.NextafterIgnoresLeadingBit := by
  unfold Obligations.NextafterIgnoresLeadingBit
  rintro s x x' y y' F hc rfl hx hy - - hne hsx hex hfx hsy hey hfy
  have hF := fmt_ok s.cfg hc .X
  obtain ⟨-, hcanonical, -⟩ := nextAfter_neighbour hF hx hy hne
  refine ⟨?_, _, _, nextafterExtendedRefines x y s hc, hcanonical⟩
  rw [nextafterExtendedRefines x' y' s hc, nextafterExtendedRefines x y s hc,
    nextAfter_congr hF hx.2 hy.2 hne hsx (Fmt.mag_congr hex hfx) hsy (Fmt.mag_congr hey hfy)]

end Sys2Proof.Machine
end

section
/-! PROOFS. The flag register commands (43_system.md): FRFLAGS answers the value on the port `fflags` (O47), and FWFLAGS
overwrites the register (O48). -/

namespace Sys2Proof.Machine

/-- 10_state.md R39: the port shows FFLAGS where the register is there, and reads 0 where it is not. -/
theorem fflagsPort_toNat (s : State) : s.fflagsPort.toNat = if s.cfg.hasFlags = true then s.fflags.toNat else 0 :=
  apply_ite BitVec.toNat _ s.fflags 0

theorem exec_frflags (s : State) : exec .frflags s = .next (s.answered s.fflagsPort.toNat) := exec_answered rfl rfl

theorem exec_fwflags (v : FlagBits) (s : State) : exec (.fwflags v) s = .next (s.respondWriteFlags v) := rfl

/-- Settles O47: FRFLAGS answers what the port shows. -/
theorem frflagsReads : Obligations.FrflagsReads := by
  unfold Obligations.FrflagsReads
  intro s A B
  exact ⟨runs_of_answered ⟨rfl, rfl⟩ (exec_frflags s) (fflagsPort_toNat s), fflagsPort_toNat s⟩

/-- Settles O48: `v` is the operand FWFLAGS reads from `op_a`, and the command writes it over FFLAGS. -/
theorem fwflagsOverwrites : Obligations.FwflagsOverwrites := by
  unfold Obligations.FwflagsOverwrites
  intro s A B v hv
  obtain rfl : flagOperand A = v := BitVec.eq_of_toNat_eq hv.symm
  exact ⟨decode_of_cmd_fwflags rfl, exec_fwflags _ s⟩

end Sys2Proof.Machine
end

section
/-! PROOFS. The illegal-command response (60_exceptions.md R152, O11): a word outside the table of 30_encoding.md R59
decodes to an error, whatever its operands, and a cycle that presents it answers `err` and nothing else. -/

namespace Sys2Proof.Machine

/-- 30_encoding.md R62: the words with no entry in the table are the ones the decoder rejects, in every configuration. -/
theorem decode_eq_error_iff (c : Config) (b : Beat) : (∃ e, decode c b = .error e) ↔ b.cmd ∉ legalCommandWords := by
  rw [← definedCommandWords c b]
  cases decode c b <;> simp

theorem step_of_illegal {s : State} {e : Illegal} (hc : s.cfg.wf = true) (hr : s.ports.rst = false)
    (hv : s.ports.cmdValid = true) (hd : decode s.cfg s.ports.beat = .error e) :
    step s = .next s.advance.respondIllegal := by
  simp [step, hc, hr, hv, hd]

/-- Settles O11: a word outside the table makes the illegal-command response, which `respondIllegal` writes out; a word
of the table decodes to a command (O8), the step runs it (O3), and no command sets `err` (`exec_next`). -/
theorem illegalCommandResponse : Obligations.IllegalCommandResponse := by
  unfold Obligations.IllegalCommandResponse
  refine fun s b rest hc => ⟨fun hillegal => ?illegal, fun hlegal => ?legal⟩
  case illegal =>
    obtain ⟨e, hd⟩ := (decode_eq_error_iff s.cfg b).2 hillegal
    exact step_of_illegal hc rfl rfl hd
  case legal =>
    obtain ⟨i, hd⟩ := (definedCommandWords s.cfg b).2 hlegal
    obtain ⟨t, hexec, -, -, -, hvalid, herr⟩ := exec_next i { s with inputs := rest }
    exact ⟨t, (stepRunsDecodedCommand s b rest i hc hd).trans hexec, hvalid, herr⟩

end Sys2Proof.Machine
end

section
/-! PROOFS. Reset (70_reset_and_hazards.md R170, O1): the cycle with `rst = 1` is the model's `resetCycle`, whatever
command stands on the ports, and the state it leaves runs the next command of the host's list. -/

namespace Sys2Proof.Machine

/-- 10_state.md R36, for a state whose host's list is known to begin with a command. -/
theorem step_of_inputs_eq_command_cons {s : State} {b : Beat} {rest : List InCycle} {i : Instr}
    (hc : s.cfg.wf = true) (hin : s.inputs = InCycle.command b :: rest) (hd : decode s.cfg b = .ok i) :
    step s = exec i { s with inputs := rest } := by
  cases s
  cases hin
  exact stepRunsDecodedCommand _ b rest i hc hd

/-- Settles O1: `resetCycle` after `advance` is the state the statement writes out (`step_of_rst`), and that state has
the configuration of `s`, so it decodes and runs the next command as any other state does. -/
theorem resetClearsEverything : Obligations.ResetClearsEverything := by
  unfold Obligations.ResetClearsEverything
  refine ⟨?resetState, fun s hc hr => ⟨s.advance.resetCycle, _, _, step_of_rst hc hr, rfl, ?nextCycle⟩⟩
  case resetState => exact ⟨rfl, rfl, rfl, rfl, rfl⟩
  case nextCycle =>
    intro b rest i hin hd
    exact step_of_inputs_eq_command_cons (s := s.advance.resetCycle) hc hin hd

end Sys2Proof.Machine
end
